-- ==== Sys2Proof/Word.lean ====
section
/-! DEFINITION. The word type of the core: the closed set of widths and the w-bit word (00_scope.md R5, R10;
41_parameter_resolver.md R151). -/

namespace Sys2Proof

/-- The word width `w`: a closed set of three, so that any other width is unrepresentable (R5, R151). -/
inductive Width where
  | w16
  | w32
  | w64
  deriving DecidableEq, Repr

/-- `w` as a number of bits (R5). -/
def Width.bits : Width → Nat
  | .w16 => 16
  | .w32 => 32
  | .w64 => 64

/-- A byte is 8 bits (R9). -/
abbrev Byte := BitVec 8

/-- A Word: "an unsigned integer of exactly `w` bits" (R10). -/
abbrev Word (W : Width) := BitVec W.bits

end Sys2Proof
end

