-- ==== Sys2Proof/Machine/Memory.lean ====
section
/-! DEFINITION. A byte buffer of the host interface (`KEY`, `DIN`, `DOUT`; 20_memory.md R70) as a list of address and
byte pairs in one canonical form: addresses strictly rising and below the buffer's size, and no entry equal to what an
unlisted address reads as. -/

namespace Sys2Proof.Machine

/-- A byte buffer, each space indexed from 0 (R70, R81). -/
abbrev Memory := List Host.Cell

/-- What a byte that nothing has written reads as. DESIGN CHOICE (log 4): the spec calls it unspecified. -/
def Memory.unlisted : Byte := 0

/-- The byte at an address. -/
def Memory.read : Memory → Nat → Byte
  | [], _ => Memory.unlisted
  | (k, v) :: rest, a => if k = a then v else Memory.read rest a

/-- The buffer with one byte written; the canonical form is kept. -/
def Memory.write : Memory → Nat → Byte → Memory
  | [], a, v => if v = Memory.unlisted then [] else [(a, v)]
  | (k, x) :: rest, a, v =>
    if a < k then
      if v = Memory.unlisted then (k, x) :: rest else (a, v) :: (k, x) :: rest
    else if a = k then
      if v = Memory.unlisted then rest else (a, v) :: rest
    else (k, x) :: Memory.write rest a v

/-- The canonical form for addresses from `lo` up to but not including `size`. -/
def Memory.wfFrom (lo size : Nat) : Memory → Bool
  | [] => true
  | (a, v) :: rest =>
    decide (lo ≤ a) && decide (a < size) && v != Memory.unlisted && Memory.wfFrom (a + 1) size rest

/-- The canonical form of a buffer of `size` bytes. -/
def Memory.wf (size : Nat) (m : Memory) : Bool := Memory.wfFrom 0 size m

/-- The capacity of `KEY`: 255 bytes (R40, R70; D12). -/
def keyCapacity : Nat := 255

/-- The capacity of `DIN`: 16 bytes (R40, R70; D12). -/
def dinCapacity : Nat := 16

end Sys2Proof.Machine
end

