-- ==== Sys2Proof/Config.lean ====
section
/-! DEFINITION. What is fixed for one core when it is built: the parameter set `RC5-w/r/b`, the kinds of outcome the
host may be told, the parameter set of the reset state, and the free values. -/

namespace Sys2Proof

/-- The parameter set `RC5-w/r/b`, "fixed for the lifetime of a cipher instance" (R5, R30). Every pair `(r, b)` of
8-bit numbers is legal, and zero is legal for both (R5, R7; decision D10). -/
structure Params where
  /-- `w`, the word width. -/
  width : Width
  /-- `r`, the round count, 0 to 255. -/
  r : Fin 256
  /-- `b`, the key length in bytes, 0 to 255. -/
  b : Fin 256
  deriving DecidableEq, Repr

/-- The outcome of a command as the `STATUS` port names it (R41, R250, R251). -/
inductive Status where
  /-- OK: the command succeeded. -/
  | ok
  /-- E_WIDTH: an unsupported width; answered when a core is built, never by a command (R252). -/
  | eWidth
  /-- E_BLOCK_SIZE: `DLEN` is not `2u` (R253). -/
  | eBlockSize
  /-- E_KEY_LENGTH: `KLEN` is not `b` (R254). -/
  | eKeyLength
  deriving DecidableEq, Repr

/-- The parameter set of `Machine.State.reset`: the designation `RC5-32/12/16` of the source's first vector (R1).
DESIGN CHOICE (log 2): the spec names no preferred set, and every definition and statement is over all sets. -/
def Config.resetParams : Params := ⟨.w32, 12, 16⟩

/-- The free value of a storage location that the spec calls unspecified: `stamp` numbers the event that left it
unspecified, `slot` the location (R45, R281, R282; 93_implementation_defined.md U5, U8, U9). It has no body, so no
proof can know its value (log 5). -/
opaque Config.freeNat (stamp slot : Nat) : Nat

end Sys2Proof
end

