-- ==== Sys2Proof/Machine/Resolver.lean ====
section
/-! DEFINITION. The parameter resolver (41_parameter_resolver.md): everything computed once from `(w, r, b)`. "This is
the only place where word width is resolved" (R152), so all other files are written over `u`, `t`, `c`, `nMix`, `P`
and `Q`. -/

namespace Sys2Proof

/-- `u = ceil(w/8)`, the bytes of a word (R6, R235). -/
def Params.u (p : Params) : Nat := (p.width.bits + 7) / 8

/-- `t = 2*(r+1)`, the words of the expanded table `S` (R6). -/
def Params.t (p : Params) : Nat := 2 * (p.r.val + 1)

/-- `c = max(ceil(b/u), 1)`, the words of the key array `L` (R6). -/
def Params.c (p : Params) : Nat := max ((p.b.val + (p.u - 1)) / p.u) 1

/-- `n_mix = 3 * max(t, c)`, the number of mixing iterations (R6, R167). -/
def Params.nMix (p : Params) : Nat := 3 * max p.t p.c

/-- The block size `2u` in bytes (R6). -/
def Params.blockBytes (p : Params) : Nat := 2 * p.u

/-- `P` for each width (R150). PRESUMED (log 3): the source prints no value; the spec supplies these from general
knowledge (G1) and checks the 32-bit and 64-bit ones against the source's vectors. -/
def magicP : (W : Width) → Word W
  | .w16 => 0xB7E1#16
  | .w32 => 0xB7E15163#32
  | .w64 => 0xB7E151628AED2A6B#64

/-- `Q` for each width (R150). PRESUMED (log 3), as for `magicP`. -/
def magicQ : (W : Width) → Word W
  | .w16 => 0x9E37#16
  | .w32 => 0x9E3779B9#32
  | .w64 => 0x9E3779B97F4A7C15#64

/-- The width named by a number of bits; no default case (R151). -/
def Width.ofBits? : Nat → Option Width
  | 16 => some .w16
  | 32 => some .w32
  | 64 => some .w64
  | _ => none

/-- Building a core: a request for a width outside {16, 32, 64} gives E_WIDTH and no core (R151, R252). -/
def Params.make (w : Nat) (r b : Fin 256) : Except Status Params :=
  match Width.ofBits? w with
  | some W => .ok ⟨W, r, b⟩
  | none => .error .eWidth

/-- The legal round indices of ENCRND and DECRND: `1 <= i <= r` (R103). -/
abbrev Params.RoundIndex (p : Params) (i : BitVec 8) : Prop := 1 ≤ i.toNat ∧ i.toNat ≤ p.r.val

/-- The domain of PACK and UNPACK: `off + u <= 2u` (R76, R103, R231, R232). -/
abbrev Params.BlockOffset (p : Params) (off : BitVec 8) : Prop := off.toNat + p.u ≤ p.blockBytes

theorem Params.t_pos (p : Params) : 0 < p.t := by unfold Params.t; omega

theorem Params.c_pos (p : Params) : 0 < p.c := by unfold Params.c; omega

theorem Params.u_pos (p : Params) : 0 < p.u := by
  unfold Params.u
  cases p.width <;> decide

/-- `u = w/8` exactly: a word is a whole number of bytes (R235). -/
theorem Params.bits_eq (p : Params) : p.width.bits = 8 * p.u := by
  unfold Params.u
  cases p.width <;> rfl

/-- The key-word index of key byte `i` is in range (R79). -/
theorem Params.keyWord_lt (p : Params) {i : Nat} (h : i < p.b.val) : i / p.u < p.c := by
  have hu := p.u_pos
  have h1 : i / p.u < (p.b.val + (p.u - 1)) / p.u := by
    rw [Nat.div_lt_iff_lt_mul hu]
    have h2 := Nat.div_add_mod (p.b.val + (p.u - 1)) p.u
    have h3 := Nat.mod_lt (p.b.val + (p.u - 1)) hu
    rw [Nat.mul_comm]
    omega
  unfold Params.c
  omega

/-- The two table words of a round are in range (R79). -/
theorem Params.roundWord_lt (p : Params) {i : Nat} (h : i ≤ p.r.val) : 2 * i + 1 < p.t := by
  unfold Params.t
  omega

end Sys2Proof
end

