-- ==== Sys2Proof/Machine/State.lean ====
section
/-! DEFINITION. The state of the core (10_state.md), the reasons a step can stop, and the state after reset. The
parameters `(w, r, b)` are an argument of `Mach`, not fields that an operation could write (R30); `State` is one core
together with the parameters it was built with. -/

namespace Sys2Proof.Machine

/-- The input ports and buffers, owned and driven by the host, read-only to the core (R40). -/
structure HostIn where
  /-- Direction of the command: 0 = ENCODE, 1 = DECODE. -/
  OP : BitVec 1
  /-- The pulse that starts a command. -/
  START : Bool
  /-- The number of key bytes the host supplies. -/
  KLEN : BitVec 16
  /-- The number of block bytes the host supplies. -/
  DLEN : BitVec 16
  /-- The key buffer, 255 bytes. -/
  KEY : Memory
  /-- The input block buffer, 16 bytes. -/
  DIN : Memory
  deriving DecidableEq, Repr

/-- The output ports and buffer, driven by the core (R41). -/
structure HostOut where
  /-- 1 from `START` until the command ends. -/
  BUSY : Bool
  /-- 1 from the end of a command until the next `START`. -/
  DONE : Bool
  /-- The outcome of the last command, valid while `DONE` is 1. -/
  STATUS : Status
  /-- The output block, `2u` bytes, valid while `DONE` is 1 and `STATUS` is OK. -/
  DOUT : Memory
  deriving DecidableEq, Repr

/-- The working registers and arrays (R31 to R36). `I` and `J` are held as indices below `t` and `c`, the ranges R36
gives them, so that no index can leave its array (R79); `N` and `RND` have the widths of R36. -/
structure Work (p : Params) where
  /-- First block word. -/
  A : Word p.width
  /-- Second block word. -/
  B : Word p.width
  /-- First accumulator of the key scheduler. -/
  KA : Word p.width
  /-- Second accumulator of the key scheduler. -/
  KB : Word p.width
  /-- Table index of the mixing loop, 0 to t-1. -/
  I : Fin p.t
  /-- Key-word index of the mixing loop, 0 to c-1. -/
  J : Fin p.c
  /-- Mixing iterations done, 11 bits. -/
  N : BitVec 11
  /-- Round index, 8 bits. -/
  RND : BitVec 8
  /-- The expanded table. -/
  S : Vector (Word p.width) p.t
  /-- The key word array. -/
  L : Vector (Word p.width) p.c
  deriving DecidableEq, Repr

/-- The buses between the sequencer and the units: operand buses `X`, `Y`, result bus `Z` (R130, R231, R232), and the
constant buses that PQSEL drives (R150). They are wires; the model holds the value last driven on each so that an
operation issued on its own has operands and a result (log 7). -/
structure Bus (p : Params) where
  /-- First operand bus. -/
  X : Word p.width
  /-- Second operand bus. -/
  Y : Word p.width
  /-- Result bus. -/
  Z : Word p.width
  /-- Constant bus `P`. -/
  P : Word p.width
  /-- Constant bus `Q`. -/
  Q : Word p.width
  deriving DecidableEq, Repr

/-- What the sequencer moves between registers and buses around an operation it issues (R31, R36, R192, R212). -/
inductive Route where
  /-- Nothing is moved. -/
  | plain
  /-- `A <- Z` after the operation. -/
  | zToA
  /-- `B <- Z` after the operation. -/
  | zToB
  /-- `X = A` before the operation. -/
  | xFromA
  /-- `X = B` before the operation. -/
  | xFromB
  /-- `ARG = RND`: the round index of the operation word is the register `RND`. -/
  | rnd
  deriving DecidableEq, Repr

/-- One line of the sequence of a command (R192, R212). -/
inductive SeqItem where
  /-- The two length tests (R191, R211). -/
  | check
  /-- An operation word put on the select lines, with its bus routing. -/
  | issue (word : BitVec 16) (route : Route)
  /-- `KA, KB, I, J, N <- 0` of SETUPS (R165, R168). -/
  | clearMix
  /-- `RND <- i` of the loop over the rounds. -/
  | setRnd (i : BitVec 8)
  /-- `STATUS <- OK` and the end of the command. -/
  | finish
  deriving DecidableEq, Repr

/-- One core built with parameters `p`. -/
structure Mach (p : Params) where
  /-- Input ports and buffers. -/
  inp : HostIn
  /-- Output ports and buffer. -/
  out : HostOut
  /-- Working registers and arrays. -/
  work : Work p
  /-- Buses. -/
  bus : Bus p
  /-- The sequencer's position: the lines it has still to perform; empty when idle (R38, R50). -/
  seq : List SeqItem
  /-- The model's own counter of events that left storage unspecified; it stamps the free values (log 5). -/
  free : Nat
  deriving DecidableEq, Repr

/-- The state of the machine: a core and the parameters it was built with. No step changes `params` (R5, R30). -/
structure State where
  /-- `(w, r, b)`, fixed when the core is built. -/
  params : Params
  /-- The core. -/
  mach : Mach params
  deriving DecidableEq, Repr

/-- The byte buffers of R70. -/
inductive Space where
  | KEY
  | DIN
  | DOUT
  deriving DecidableEq, Repr

/-- Why an access stops. No step of the core raises one: every index of the core is in range and everything else is
total (R79, R261). -/
inductive Fault where
  /-- The host addresses a byte beyond the buffer's size; raised by `hostMove` and `hostReadByte` only. Safe: the byte
  does not exist ("have nowhere to go", R40). -/
  | noSuchByte (space : Space) (off : Nat)
  /-- The host addresses a byte of `DOUT` while `DONE` is 0 or `STATUS` is not OK; raised by `hostReadByte` only. Safe: the
  spec leaves the reading open and prefers absence (R287; U5; log 13). -/
  | outputNotValid (off : Nat)
  deriving DecidableEq, Repr

/-- Why the machine has no move. -/
inductive Refusal where
  /-- An operation without a meaning yet; raised by an arm of `exec` only. Safe. -/
  | notModelled (mnemonic : String)
  /-- A reserved word stands on the select lines; raised by `step`. Safe: neither host nor sequencer issues one and a
  model refuses it (R106; U11). -/
  | reservedWord (word : BitVec 16)
  /-- ENCRND or DECRND with `i = 0` or `i > r`; raised by their meanings. Safe: never issued, refused (R103; U12). -/
  | roundIndexRange (i : BitVec 8)
  /-- PACK or UNPACK with `off + u > 2u`; raised by their meanings. Safe: never issued, refused (R76, R103; D18). -/
  | blockOffsetRange (off : BitVec 8)
  /-- The host would change an input between `START` and `DONE`; raised by `hostMove`. Safe: the host has no such move
  (R285; U6). -/
  | inputsHeld
  /-- A command is given to a busy core: `START` by the host, raised by `hostMove`, or the word of ENCODE or DECODE, raised
  by their meanings. Safe: a model refuses it (R286; U7; log 28). -/
  | startWhileBusy
  deriving DecidableEq, Repr

/-- The working storage right after reset: R50 calls every location unspecified, so the value of each is the model's:
zero. DESIGN CHOICE (log 6). -/
def Work.reset (p : Params) : Work p where
  A := 0
  B := 0
  KA := 0
  KB := 0
  I := ⟨0, p.t_pos⟩
  J := ⟨0, p.c_pos⟩
  N := 0
  RND := 0
  S := Vector.replicate p.t 0
  L := Vector.replicate p.c 0

/-- The buses right after reset: the constant buses carry the constants of the core (R50, R150); the others carry zero.
DESIGN CHOICE (log 6) for `X`, `Y`, `Z`. -/
def Bus.reset (p : Params) : Bus p where
  X := 0
  Y := 0
  Z := 0
  P := magicP p.width
  Q := magicQ p.width

/-- The core right after reset: `BUSY = 0`, `DONE = 0`, the sequencer idle (R50, R281). `STATUS`, `DOUT` and the
host-owned inputs have no reset value in the spec. DESIGN CHOICE (log 6): zero for each. -/
def Mach.reset (p : Params) : Mach p where
  inp :=
    { OP := 0
      START := false
      KLEN := 0
      DLEN := 0
      KEY := []
      DIN := [] }
  out :=
    { BUSY := false
      DONE := false
      STATUS := .ok
      DOUT := [] }
  work := Work.reset p
  bus := Bus.reset p
  seq := []
  free := 0

/-- The machine right after reset, built with the parameters `RC5-32/12/16` (log 2). -/
def State.reset : State := ⟨Config.resetParams, Mach.reset Config.resetParams⟩

end Sys2Proof.Machine
end

