-- ==== Sys2Proof/Machine/Ops.lean ====
section
/-! DEFINITION. The shared operations: the primitives on words (00_scope.md R11), the little-endian byte accesses (R13),
the named updates of the state, and the end of a command: `raise` is the taking of an error (60_exceptions.md R256), and
`complete` the successful end. Nothing is entered on an error, so there is no return operation (R259). -/

namespace Sys2Proof.Machine

/-- `add_w(a, b) = (a + b) mod 2^w` (R11). -/
def addW {w : Nat} (a b : BitVec w) : BitVec w := BitVec.ofNat w (a.toNat + b.toNat)

/-- `sub_w(a, b) = (a - b) mod 2^w`, the residue in `[0, 2^w - 1]` (R11). -/
def subW {w : Nat} (a b : BitVec w) : BitVec w := BitVec.ofNat w (a.toNat + (2 ^ w - b.toNat))

/-- `xor_w(a, b)`, bit by bit (R11). -/
def xorW {w : Nat} (a b : BitVec w) : BitVec w := a ^^^ b

/-- `shl_w(x, n) = (x * 2^n) mod 2^w` (R11). -/
def shlW {w : Nat} (x : BitVec w) (n : Nat) : BitVec w := BitVec.ofNat w (x.toNat * 2 ^ n)

/-- `shr_w(x, n) = floor(x / 2^n)` (R11). -/
def shrW {w : Nat} (x : BitVec w) (n : Nat) : BitVec w := BitVec.ofNat w (x.toNat / 2 ^ n)

/-- `rotl_w(x, n)`: the amount is taken modulo `w` and a zero residue is treated apart (R11; 90_conflicts.md C2). -/
def rotlW {w : Nat} (x : BitVec w) (n : Nat) : BitVec w :=
  if n % w = 0 then x else addW (shlW x (n % w)) (shrW x (w - n % w))

/-- `rotr_w(x, n)` (R11). -/
def rotrW {w : Nat} (x : BitVec w) (n : Nat) : BitVec w :=
  if n % w = 0 then x else addW (shrW x (n % w)) (shlW x (w - n % w))

/-- `byte_k(x) = floor(x / 2^(8k)) mod 256` (R11). -/
def byteOf {w : Nat} (x : BitVec w) (k : Nat) : Byte := BitVec.ofNat 8 (x.toNat / 2 ^ (8 * k))

/-- `zext(v)` of a byte into a word, "the only extension the core ever performs" (R11). -/
def zextByte (w : Nat) (v : Byte) : BitVec w := BitVec.ofNat w v.toNat

/-- `sum over k in 0 .. n-1 of space[off+k] * 2^(8k)` (R13). -/
def loadNat (mem : Memory) (off : Nat) : Nat → Nat
  | 0 => 0
  | k + 1 => loadNat mem off k + (mem.read (off + k)).toNat * 2 ^ (8 * k)

/-- `MemRead(space, off, n)` into a word (R13, R231). -/
def loadWord (w : Nat) (mem : Memory) (off n : Nat) : BitVec w := BitVec.ofNat w (loadNat mem off n)

/-- `MemWrite(space, off, n, x)`: byte `k` of `x` to `off + k`, for `k = 0 .. n-1` (R13, R232). -/
def storeWord {w : Nat} (mem : Memory) (off : Nat) (x : BitVec w) : Nat → Memory
  | 0 => mem
  | k + 1 => (storeWord mem off x k).write (off + k) (byteOf x k)

/-- The `n` bytes of a buffer from `off` on. -/
def readBytes (mem : Memory) (off n : Nat) : List Byte := (List.range n).map fun k => mem.read (off + k)

/-- The index after `i`, "cyclically": after the last comes 0 (R166). -/
def nextIndex {n : Nat} (i : Fin n) : Fin n :=
  ⟨(i.val + 1) % n, Nat.mod_lt _ (Nat.lt_of_le_of_lt (Nat.zero_le _) i.isLt)⟩

/-- Two block words written. -/
def Work.setAB {p : Params} (k : Work p) (a b : Word p.width) : Work p := { k with A := a, B := b }

/-- The round index written. -/
def Work.setRND {p : Params} (k : Work p) (i : BitVec 8) : Work p := { k with RND := i }

/-- The key word array written. -/
def Work.setL {p : Params} (k : Work p) (L : Vector (Word p.width) p.c) : Work p := { k with L := L }

/-- The expanded table written. -/
def Work.setS {p : Params} (k : Work p) (S : Vector (Word p.width) p.t) : Work p := { k with S := S }

/-- The working storage replaced. -/
def Mach.setWork {p : Params} (m : Mach p) (k : Work p) : Mach p := { m with work := k }

/-- The result bus driven. -/
def Mach.driveZ {p : Params} (m : Mach p) (z : Word p.width) : Mach p := { m with bus := { m.bus with Z := z } }

/-- The operand bus of the packer driven. -/
def Mach.driveX {p : Params} (m : Mach p) (x : Word p.width) : Mach p := { m with bus := { m.bus with X := x } }

/-- The constant buses driven. -/
def Mach.drivePQ {p : Params} (m : Mach p) (P Q : Word p.width) : Mach p :=
  { m with bus := { m.bus with P := P, Q := Q } }

/-- The output buffer written. -/
def Mach.setDOUT {p : Params} (m : Mach p) (d : Memory) : Mach p := { m with out := { m.out with DOUT := d } }

/-- The sequencer's position moved. -/
def Mach.setSeq {p : Params} (m : Mach p) (l : List SeqItem) : Mach p := { m with seq := l }

/-- A free word (log 5). -/
def freeWord (w stamp slot : Nat) : BitVec w := BitVec.ofNat w (Config.freeNat stamp slot)

/-- A free index below `n` (log 5). -/
def freeIndex {n : Nat} (h : 0 < n) (stamp slot : Nat) : Fin n := ⟨Config.freeNat stamp slot % n, Nat.mod_lt _ h⟩

/-- Working storage whose contents are unspecified: every location holds a free value, within the range R36 gives the
counters (R45, R50, R281; U8). -/
def Work.unspecified (p : Params) (stamp : Nat) : Work p where
  A := freeWord _ stamp 0
  B := freeWord _ stamp 1
  KA := freeWord _ stamp 2
  KB := freeWord _ stamp 3
  I := freeIndex p.t_pos stamp 4
  J := freeIndex p.c_pos stamp 5
  N := BitVec.ofNat 11 (Config.freeNat stamp 6 % (p.nMix + 1))
  RND := BitVec.ofNat 8 (Config.freeNat stamp 7 % (p.r.val + 1))
  S := Vector.ofFn fun i => freeWord _ stamp (16 + 2 * i.val)
  L := Vector.ofFn fun j => freeWord _ stamp (17 + 2 * j.val)

/-- Buses that nothing drives: `X`, `Y`, `Z` are free, the constant buses stay (log 7). -/
def Bus.undriven {p : Params} (k : Bus p) (stamp : Nat) : Bus p :=
  { k with X := freeWord _ stamp 8, Y := freeWord _ stamp 9, Z := freeWord _ stamp 10 }

/-- Taking an error, "`raise E_X`" (R256): the command ends at once with `STATUS <- E_X`, `BUSY <- 0`, `DONE <- 1`, and
the core returns to idle. "Nothing else changes." -/
def raise {p : Params} (e : Status) (m : Mach p) : Mach p :=
  { m with out := { m.out with BUSY := false, DONE := true, STATUS := e }, seq := [] }

/-- The successful end of a command (R41, R192, R251): `STATUS <- OK`, `BUSY <- 0`, `DONE <- 1`, the core idle, and the
working storage unspecified from here on (R45). -/
def complete {p : Params} (m : Mach p) : Mach p :=
  { m with
    out := { m.out with BUSY := false, DONE := true, STATUS := .ok }
    work := Work.unspecified p m.free
    bus := m.bus.undriven m.free
    seq := []
    free := m.free + 1 }

/-- The answer of a meaning that completes. -/
def State.answer (s : State) (m : Mach s.params) : Host.Outcome State Fault Refusal := .next ⟨s.params, m⟩

end Sys2Proof.Machine
end

