-- ==== Sys2Proof/Machine/Flags.lean ====
section
/-! DEFINITION. There are no flags, condition codes or predicates (10_state.md R39): no operation of the word unit writes
one and none tests one (R139). The only condition the core computes is the outcome of a command: the two length tests
(60_exceptions.md R253 to R255) and the code `STATUS` shows for it (R251). -/

namespace Sys2Proof.Machine

/-- The 2-bit code of the `STATUS` port (R41, R251). -/
def statusCode : Status → BitVec 2
  | .ok => 0b00
  | .eWidth => 0b01
  | .eBlockSize => 0b10
  | .eKeyLength => 0b11

/-- The two length tests of a command, the block size first (R191, R211, R253 to R255; D6): the error, if any. -/
def lengthError (p : Params) (inp : HostIn) : Option Status :=
  if inp.DLEN.toNat ≠ p.blockBytes then some .eBlockSize
  else if inp.KLEN.toNat ≠ p.b.val then some .eKeyLength
  else none

end Sys2Proof.Machine
end

