-- ==== Sys2Proof/Syntax.lean ====
section
/-! DEFINITION. The eighteen operations of the core (30_encoding.md R104): two host commands and sixteen internal
operations, one constructor per row of spec/opcode_table.json. -/

namespace Sys2Proof

/-- An operation of the core. `ARG` is kept only where the row gives it a meaning (R103). -/
inductive Instr where
  /-- ENCODE: encrypt one block (R190). -/
  | encode
  /-- DECODE: decrypt one block (R210). -/
  | decode
  /-- ADDW: modular word addition (R131). -/
  | addw
  /-- SUBW: modular word subtraction (R132). -/
  | subw
  /-- XORW: bitwise exclusive or (R133). -/
  | xorw
  /-- ROTL: rotate left by a variable amount (R134). -/
  | rotl
  /-- ROTR: rotate right by a variable amount (R135). -/
  | rotr
  /-- PQSEL: select the magic constants (R150). -/
  | pqsel
  /-- SETUPS: build the expanded table from the key (R168). -/
  | setups
  /-- KFOLD: fold the key bytes into `L` (R161). -/
  | kfold
  /-- SSEED: fill `S` with the key-independent seed (R163). -/
  | sseed
  /-- SMIX: one iteration of the mixing loop (R166). -/
  | smix
  /-- WHITEN: the initial key addition (R193). -/
  | whiten
  /-- ENCRND `i`: one encryption round (R194). -/
  | encrnd (i : BitVec 8)
  /-- UNWHITEN: undo the initial key addition (R214). -/
  | unwhiten
  /-- DECRND `i`: one decryption round (R213). -/
  | decrnd (i : BitVec 8)
  /-- PACK `off`: `u` bytes of `DIN` to a word (R231). -/
  | pack (off : BitVec 8)
  /-- UNPACK `off`: a word to `u` bytes of `DOUT` (R232). -/
  | unpack (off : BitVec 8)
  deriving DecidableEq, Repr

end Sys2Proof
end

