-- ==== Sys2Proof/WellFormed.lean ====
section
/-! DEFINITION. Which operations a core with parameters `p` has: the legal values of `ARG` (30_encoding.md R103,
R111). -/

namespace Sys2Proof

/-- `ARG` lies in the range R103 gives the operation on a core with parameters `p`. -/
def Instr.wf (p : Params) : Instr → Bool
  | .encode => true
  | .decode => true
  | .addw => true
  | .subw => true
  | .xorw => true
  | .rotl => true
  | .rotr => true
  | .pqsel => true
  | .setups => true
  | .kfold => true
  | .sseed => true
  | .smix => true
  | .whiten => true
  | .encrnd i => decide (p.RoundIndex i)
  | .unwhiten => true
  | .decrnd i => decide (p.RoundIndex i)
  | .pack off => decide (p.BlockOffset off)
  | .unpack off => decide (p.BlockOffset off)

end Sys2Proof
end

