-- ==== Sys2Proof/Decode.lean ====
section
/-! DEFINITION. The operation word `OPW` (30_encoding.md): its decoder, total on all 16-bit words and rejecting by
name, and the encoder. The bit patterns are the spec's own decision (D3). -/

namespace Sys2Proof

/-- `ARG = OPW[15:8]` (R101). -/
def opwArg (x : BitVec 16) : BitVec 8 := BitVec.extractLsb' 8 8 x

/-- `UNIT = OPW[7:4]` (R101). -/
def opwUnit (x : BitVec 16) : BitVec 4 := BitVec.extractLsb' 4 4 x

/-- Why a word is reserved (R106). -/
inductive Reserved where
  /-- `UNIT` is 6 to 15: there is no such unit. -/
  | unit
  /-- The unit has no operation of that `SEL`. -/
  | select
  /-- A non-zero `ARG` on an operation that takes none. -/
  | argument
  /-- `ARG` is outside the range R103 gives the operation on this core. -/
  | argumentRange
  deriving DecidableEq, Repr

/-- One row of R104: a word `x` selects it when `x AND mask = pattern`. -/
structure OpcodeRow where
  /-- The row's mnemonic. -/
  mnemonic : String
  /-- The row's `match`. -/
  pattern : BitVec 16
  /-- The row's `mask`. -/
  mask : BitVec 16
  /-- The operation named by the row, given `ARG`. -/
  build : BitVec 8 → Instr

/-- `x AND mask = match` (R104). -/
def OpcodeRow.selects (row : OpcodeRow) (x : BitVec 16) : Bool := x &&& row.mask == row.pattern

/-- The rows of R104 for units 0 to 2: the command sequencer, the word arithmetic unit, the parameter resolver. -/
def opcodeRowsLow : List OpcodeRow :=
  [⟨"ENCODE", 0x0000#16, 0xFFFF#16, fun _ => .encode⟩,
   ⟨"DECODE", 0x0001#16, 0xFFFF#16, fun _ => .decode⟩,
   ⟨"ADDW", 0x0010#16, 0xFFFF#16, fun _ => .addw⟩,
   ⟨"SUBW", 0x0011#16, 0xFFFF#16, fun _ => .subw⟩,
   ⟨"XORW", 0x0012#16, 0xFFFF#16, fun _ => .xorw⟩,
   ⟨"ROTL", 0x0013#16, 0xFFFF#16, fun _ => .rotl⟩,
   ⟨"ROTR", 0x0014#16, 0xFFFF#16, fun _ => .rotr⟩,
   ⟨"PQSEL", 0x0020#16, 0xFFFF#16, fun _ => .pqsel⟩]

/-- The rows of R104 for units 3 to 5: the key scheduler, the round unit, the packer. -/
def opcodeRowsHigh : List OpcodeRow :=
  [⟨"SETUPS", 0x0030#16, 0xFFFF#16, fun _ => .setups⟩,
   ⟨"KFOLD", 0x0031#16, 0xFFFF#16, fun _ => .kfold⟩,
   ⟨"SSEED", 0x0032#16, 0xFFFF#16, fun _ => .sseed⟩,
   ⟨"SMIX", 0x0033#16, 0xFFFF#16, fun _ => .smix⟩,
   ⟨"WHITEN", 0x0040#16, 0xFFFF#16, fun _ => .whiten⟩,
   ⟨"ENCRND", 0x0041#16, 0x00FF#16, fun i => .encrnd i⟩,
   ⟨"UNWHITEN", 0x0042#16, 0xFFFF#16, fun _ => .unwhiten⟩,
   ⟨"DECRND", 0x0043#16, 0x00FF#16, fun i => .decrnd i⟩,
   ⟨"PACK", 0x0050#16, 0x00FF#16, fun off => .pack off⟩,
   ⟨"UNPACK", 0x0051#16, 0x00FF#16, fun off => .unpack off⟩]

/-- The opcode map of R104: eighteen rows. -/
def opcodeRows : List OpcodeRow := opcodeRowsLow ++ opcodeRowsHigh

/-- The name of the reason why a word that selects no row is reserved (R106). -/
def reservedReason (x : BitVec 16) : Reserved :=
  if 6 ≤ (opwUnit x).toNat then .unit
  else if opcodeRows.any (fun row => x &&& 0x00FF#16 == row.pattern) then .argument
  else .select

/-- The decoder of R111, up to the range of `ARG`: the one row the word selects, or the reason why it is reserved. -/
def decode (x : BitVec 16) : Except Reserved Instr :=
  match opcodeRows.find? (fun row => row.selects x) with
  | some row => .ok (row.build (opwArg x))
  | none => .error (reservedReason x)

/-- The whole decoder of R111 on a core with parameters `p`: ENCRND and DECRND need `1 <= i <= r`, PACK and UNPACK
need `off + u <= 2u`. -/
def decodeFor (p : Params) (x : BitVec 16) : Except Reserved Instr :=
  match decode x with
  | .ok i => if i.wf p then .ok i else .error .argumentRange
  | .error e => .error e

/-- The decoder on a row of the opcode table: an operation word is 16 bits and one host port carries it whole, so the
table's bit numbering is the word's own (R101). -/
def decodeTableWord (nbits w : Nat) : Option Instr :=
  if w % 2 ^ nbits < 2 ^ 16 then (decode (BitVec.ofNat 16 (w % 2 ^ nbits))).toOption else none

/-- `OPW = ARG[15:8], UNIT[7:4], SEL[3:0]` (R101). -/
def opw (arg : BitVec 8) (unit sel : BitVec 4) : BitVec 16 := arg ++ unit ++ sel

/-- The operation word of an operation (R101, R102, R104). -/
def encode : Instr → BitVec 16
  | .encode => opw 0 0x0 0x0
  | .decode => opw 0 0x0 0x1
  | .addw => opw 0 0x1 0x0
  | .subw => opw 0 0x1 0x1
  | .xorw => opw 0 0x1 0x2
  | .rotl => opw 0 0x1 0x3
  | .rotr => opw 0 0x1 0x4
  | .pqsel => opw 0 0x2 0x0
  | .setups => opw 0 0x3 0x0
  | .kfold => opw 0 0x3 0x1
  | .sseed => opw 0 0x3 0x2
  | .smix => opw 0 0x3 0x3
  | .whiten => opw 0 0x4 0x0
  | .encrnd i => opw i 0x4 0x1
  | .unwhiten => opw 0 0x4 0x2
  | .decrnd i => opw i 0x4 0x3
  | .pack off => opw off 0x5 0x0
  | .unpack off => opw off 0x5 0x1

end Sys2Proof
end

