-- ==== Sys2Proof/Machine/Operands.lean ====
section
/-! DEFINITION. The operand forms (30_encoding.md R103): the operand buses and the bus routing of the sequencer, the
table words of a round, the block offset. -/

namespace Sys2Proof.Machine

/-- The operation word the sequencer puts on the select lines: in the loop over the rounds its `ARG` is the register
`RND`, "`OPW (RND << 8) + 0x41`" (R192, R212); otherwise it is the word of the line. -/
def routeWord {p : Params} (route : Route) (word : BitVec 16) (m : Mach p) : BitVec 16 :=
  match route with
  | .plain => word
  | .zToA => word
  | .zToB => word
  | .xFromA => word
  | .xFromB => word
  | .rnd => m.work.RND ++ BitVec.extractLsb' 0 8 word

/-- The register moves the sequencer makes before an operation (R192, R212). -/
def routeIn {p : Params} (route : Route) (m : Mach p) : Mach p :=
  match route with
  | .plain => m
  | .zToA => m
  | .zToB => m
  | .xFromA => m.driveX m.work.A
  | .xFromB => m.driveX m.work.B
  | .rnd => m

/-- The register moves the sequencer makes after an operation (R192, R212). -/
def routeOut {p : Params} (route : Route) (m : Mach p) : Mach p :=
  match route with
  | .plain => m
  | .zToA => m.setWork (m.work.setAB m.bus.Z m.work.B)
  | .zToB => m.setWork (m.work.setAB m.work.A m.bus.Z)
  | .xFromA => m
  | .xFromB => m
  | .rnd => m

/-- `S[2i]`, the table word of the first half of round `i` (R89, R194, R213). -/
def roundWordA {p : Params} (k : Work p) (i : Nat) (h : i ≤ p.r.val) : Word p.width :=
  k.S[2 * i]'(Nat.lt_of_succ_lt (p.roundWord_lt h))

/-- `S[2i+1]`, the table word of the second half of round `i` (R89, R194, R213). -/
def roundWordB {p : Params} (k : Work p) (i : Nat) (h : i ≤ p.r.val) : Word p.width :=
  k.S[2 * i + 1]'(p.roundWord_lt h)

end Sys2Proof.Machine
end

