-- ==== Sys2Proof/Machine/KeySchedule.lean ====
section
/-! DEFINITION. The key scheduler (42_key_scheduler.md): KFOLD, SSEED, SMIX and their composite SETUPS. -/

namespace Sys2Proof.Machine

/-- One byte step of KFOLD: `add_w(shl_w(x, 8), zext(v))` (R161). -/
def foldByte {w : Nat} (x : BitVec w) (v : Byte) : BitVec w := addW (shlW x 8) (zextByte w v)

/-- The byte steps of KFOLD for `i = n-1` down to `0` (R161). -/
def foldKey (p : Params) (key : Memory) :
    (n : Nat) → n ≤ p.b.val → Vector (Word p.width) p.c → Vector (Word p.width) p.c
  | 0, _, L => L
  | i + 1, h, L =>
    foldKey p key i (Nat.le_of_succ_le h)
      (L.set (i / p.u) (foldByte (L[i / p.u]'(p.keyWord_lt h)) (key.read i)) (p.keyWord_lt h))

/-- KFOLD on the working storage: every element of `L` zero, then the byte steps (R161). -/
def kfoldWork {p : Params} (key : Memory) (k : Work p) : Work p :=
  k.setL (foldKey p key p.b.val (Nat.le_refl _) (Vector.replicate p.c 0))

/-- `S[0] <- P`, then `S[i] <- add_w(S[i-1], Q)` for `i = 1 .. n` (R163). -/
def seedTable (p : Params) (S : Vector (Word p.width) p.t) : (n : Nat) → n < p.t → Vector (Word p.width) p.t
  | 0, h => S.set 0 (magicP p.width) h
  | n + 1, h =>
    let T := seedTable p S n (Nat.lt_of_succ_lt h)
    T.set (n + 1) (addW (T[n]'(Nat.lt_of_succ_lt h)) (magicQ p.width)) h

/-- SSEED on the working storage (R163). -/
def sseedWork {p : Params} (k : Work p) : Work p :=
  k.setS (seedTable p k.S (p.t - 1) (Nat.sub_one_lt (Nat.pos_iff_ne_zero.mp p.t_pos)))

/-- `KA <- 0 ; KB <- 0 ; I <- 0 ; J <- 0 ; N <- 0` (R165). -/
def clearMixWork {p : Params} (k : Work p) : Work p :=
  { k with
    KA := 0
    KB := 0
    I := ⟨0, p.t_pos⟩
    J := ⟨0, p.c_pos⟩
    N := 0 }

/-- SMIX on the working storage: the second half uses the `KA` the first half has just written (R166). -/
def smixWork {p : Params} (k : Work p) : Work p :=
  let va := rotlW (addW (addW k.S[k.I] k.KA) k.KB) 3
  let amt := addW va k.KB
  let vb := rotlW (addW (addW k.L[k.J] va) k.KB) amt.toNat
  { k with
    KA := va
    KB := vb
    I := nextIndex k.I
    J := nextIndex k.J
    N := k.N + 1
    S := k.S.set k.I va
    L := k.L.set k.J vb }

/-- `n` iterations of the mixing loop (R167). -/
def mixTimes {p : Params} : Nat → Work p → Work p
  | 0, k => k
  | n + 1, k => mixTimes n (smixWork k)

/-- SETUPS on the working storage: KFOLD, SSEED, the zeroing, then `n_mix` times SMIX (R168). -/
def setupsWork {p : Params} (key : Memory) (k : Work p) : Work p :=
  mixTimes p.nMix (clearMixWork (sseedWork (kfoldWork key k)))

/-- KFOLD (R161). -/
def execKfold (s : State) : Host.Outcome State Fault Refusal :=
  s.answer (s.mach.setWork (kfoldWork s.mach.inp.KEY s.mach.work))

/-- SSEED (R163). -/
def execSseed (s : State) : Host.Outcome State Fault Refusal :=
  s.answer (s.mach.setWork (sseedWork s.mach.work))

/-- SMIX (R166). -/
def execSmix (s : State) : Host.Outcome State Fault Refusal :=
  s.answer (s.mach.setWork (smixWork s.mach.work))

/-- SETUPS (R168). -/
def execSetups (s : State) : Host.Outcome State Fault Refusal :=
  s.answer (s.mach.setWork (setupsWork s.mach.inp.KEY s.mach.work))

end Sys2Proof.Machine
end

