-- ==== Sys2Proof/Machine/Packer.lean ====
section
/-! DEFINITION. The byte/word packing unit (45_packing.md): PACK is bytes of `DIN` to a word on `Z`, UNPACK is a word
on `X` to bytes of `DOUT`. Neither checks a length (R233). -/

namespace Sys2Proof.Machine

/-- The word of the `u` bytes of `DIN` at `off` (R231). -/
def packWord {p : Params} (m : Mach p) (off : Nat) : Word p.width := loadWord p.width.bits m.inp.DIN off p.u

/-- PACK on the core: `Z = MemRead(DIN, off, u)` (R231). -/
def packMach {p : Params} (off : Nat) (m : Mach p) : Mach p := m.driveZ (packWord m off)

/-- UNPACK on the core: `MemWrite(DOUT, off, u, X)` (R232). -/
def unpackMach {p : Params} (off : Nat) (m : Mach p) : Mach p := m.setDOUT (storeWord m.out.DOUT off m.bus.X p.u)

/-- PACK `off` (R231); an `off` outside the block is never issued and refused (R76, R103; D18). -/
def execPack (off : BitVec 8) (s : State) : Host.Outcome State Fault Refusal :=
  if s.params.BlockOffset off then s.answer (packMach off.toNat s.mach) else .refused (.blockOffsetRange off)

/-- UNPACK `off` (R232); an `off` outside the block is never issued and refused (R76, R103; D18). -/
def execUnpack (off : BitVec 8) (s : State) : Host.Outcome State Fault Refusal :=
  if s.params.BlockOffset off then s.answer (unpackMach off.toNat s.mach) else .refused (.blockOffsetRange off)

end Sys2Proof.Machine
end

