-- ==== Sys2Proof/Machine/RoundUnit.lean ====
section
/-! DEFINITION. The round unit in both directions (43_encrypt.md, 44_decrypt.md): WHITEN, ENCRND, UNWHITEN, DECRND. -/

namespace Sys2Proof.Machine

/-- WHITEN on the working storage: `A <- add_w(A, S[0])`, `B <- add_w(B, S[1])` (R193). -/
def whitenWork {p : Params} (k : Work p) : Work p :=
  k.setAB (addW k.A (roundWordA k 0 (Nat.zero_le _))) (addW k.B (roundWordB k 0 (Nat.zero_le _)))

/-- UNWHITEN on the working storage: `B <- sub_w(B, S[1])`, `A <- sub_w(A, S[0])` (R214). -/
def unwhitenWork {p : Params} (k : Work p) : Work p :=
  k.setAB (subW k.A (roundWordA k 0 (Nat.zero_le _))) (subW k.B (roundWordB k 0 (Nat.zero_le _)))

/-- ENCRND `i` on the working storage: the second half sees the `A` of the first half (R194). -/
def encrndWork {p : Params} (k : Work p) (i : Nat) (h : i ≤ p.r.val) : Work p :=
  let a := addW (rotlW (xorW k.A k.B) k.B.toNat) (roundWordA k i h)
  let b := addW (rotlW (xorW k.B a) a.toNat) (roundWordB k i h)
  k.setAB a b

/-- DECRND `i` on the working storage: `B` is recovered first, with the `A` the round begins with, then `A` with the
recovered `B` (R213; 90_conflicts.md C5). -/
def decrndWork {p : Params} (k : Work p) (i : Nat) (h : i ≤ p.r.val) : Work p :=
  let b := xorW (rotrW (subW k.B (roundWordB k i h)) k.A.toNat) k.A
  let a := xorW (rotrW (subW k.A (roundWordA k i h)) b.toNat) b
  k.setAB a b

/-- `for RND = 1 .. n: ENCRND RND` (R192). -/
def encRounds {p : Params} (k : Work p) : (n : Nat) → n ≤ p.r.val → Work p
  | 0, _ => k
  | n + 1, h => encrndWork ((encRounds k n (Nat.le_of_succ_le h)).setRND (BitVec.ofNat 8 (n + 1))) (n + 1) h

/-- `for RND = n down to 1: DECRND RND` (R212). -/
def decRounds {p : Params} : (n : Nat) → n ≤ p.r.val → Work p → Work p
  | 0, _, k => k
  | n + 1, h, k =>
    decRounds n (Nat.le_of_succ_le h) (decrndWork (k.setRND (BitVec.ofNat 8 (n + 1))) (n + 1) h)

/-- WHITEN (R193). -/
def execWhiten (s : State) : Host.Outcome State Fault Refusal :=
  s.answer (s.mach.setWork (whitenWork s.mach.work))

/-- UNWHITEN (R214). -/
def execUnwhiten (s : State) : Host.Outcome State Fault Refusal :=
  s.answer (s.mach.setWork (unwhitenWork s.mach.work))

/-- ENCRND `i` (R194); `i` outside `1 .. r` is never issued and refused (R103, R106). -/
def execEncrnd (i : BitVec 8) (s : State) : Host.Outcome State Fault Refusal :=
  if h : s.params.RoundIndex i then s.answer (s.mach.setWork (encrndWork s.mach.work i.toNat h.2))
  else .refused (.roundIndexRange i)

/-- DECRND `i` (R213); `i` outside `1 .. r` is never issued and refused (R103, R106). -/
def execDecrnd (i : BitVec 8) (s : State) : Host.Outcome State Fault Refusal :=
  if h : s.params.RoundIndex i then s.answer (s.mach.setWork (decrndWork s.mach.work i.toNat h.2))
  else .refused (.roundIndexRange i)

end Sys2Proof.Machine
end

