-- ==== Sys2Proof/Machine/Commands.lean ====
section
/-! DEFINITION. The two host commands (43_encrypt.md R190 to R192, 44_decrypt.md R210 to R212) as one architectural step
each (D1): the length tests, then the fixed sequence of operations. `Sequencer.lean` performs the same sequence one
operation at a time. -/

namespace Sys2Proof.Machine

/-- `A <- PACK 0 ; B <- PACK u` (R73, R192). -/
def loadBlock {p : Params} (m : Mach p) : Mach p :=
  routeOut .zToB (packMach p.u (routeOut .zToA (packMach 0 m)))

/-- `UNPACK 0` with `X = A`, then `UNPACK u` with `X = B` (R73, R192). -/
def storeBlock {p : Params} (m : Mach p) : Mach p :=
  let m1 := unpackMach 0 (m.driveX m.work.A)
  unpackMach p.u (m1.driveX m1.work.B)

/-- SETUPS inside a command (R171: the table is built afresh from `KEY`). -/
def setupsMach {p : Params} (m : Mach p) : Mach p := m.setWork (setupsWork m.inp.KEY m.work)

/-- WHITEN and the rounds `1 .. r` (R192). -/
def encryptWork {p : Params} (k : Work p) : Work p := encRounds (whitenWork k) p.r.val (Nat.le_refl _)

/-- The rounds `r .. 1` and UNWHITEN (R212). -/
def decryptWork {p : Params} (k : Work p) : Work p := unwhitenWork (decRounds p.r.val (Nat.le_refl _) k)

/-- The sequence of ENCODE after its tests (R192). -/
def runEncode {p : Params} (m : Mach p) : Mach p :=
  let m1 := setupsMach (loadBlock m)
  complete (storeBlock (m1.setWork (encryptWork m1.work)))

/-- The sequence of DECODE after its tests (R212). -/
def runDecode {p : Params} (m : Mach p) : Mach p :=
  let m1 := setupsMach (loadBlock m)
  complete (storeBlock (m1.setWork (decryptWork m1.work)))

/-- A command: refused by a busy core (R286; log 28), ended by the length tests (R191, R211), else run. -/
def State.command (s : State) (run : Mach s.params → Mach s.params) : Host.Outcome State Fault Refusal :=
  if s.mach.out.BUSY then .refused .startWhileBusy
  else
    match lengthError s.params s.mach.inp with
    | some e => s.answer (raise e s.mach)
    | none => s.answer (run s.mach)

/-- ENCODE (R190 to R192). -/
def execEncode (s : State) : Host.Outcome State Fault Refusal := s.command runEncode

/-- DECODE (R210 to R212). -/
def execDecode (s : State) : Host.Outcome State Fault Refusal := s.command runDecode

end Sys2Proof.Machine
end

