-- ==== Sys2Proof/Machine/ParamUnit.lean ====
section
/-! DEFINITION. The parameter resolver's one operation (41_parameter_resolver.md R150). -/

namespace Sys2Proof.Machine

/-- PQSEL: the magic constants of the core's width on the two constant buses (R150). -/
def execPqsel (s : State) : Host.Outcome State Fault Refusal :=
  s.answer (s.mach.drivePQ (magicP s.params.width) (magicQ s.params.width))

end Sys2Proof.Machine
end

