-- ==== Sys2Proof/Machine/WordUnit.lean ====
section
/-! DEFINITION. The word arithmetic unit (40_word_arithmetic.md): each operation is a pure function of the operand buses
`X`, `Y` to the result bus `Z`, total on all words (R130, R139). -/

namespace Sys2Proof.Machine

/-- ADDW: `Z = add_w(X, Y)` (R131). -/
def execAddw (s : State) : Host.Outcome State Fault Refusal :=
  s.answer (s.mach.driveZ (addW s.mach.bus.X s.mach.bus.Y))

/-- SUBW: `Z = sub_w(X, Y)` (R132). -/
def execSubw (s : State) : Host.Outcome State Fault Refusal :=
  s.answer (s.mach.driveZ (subW s.mach.bus.X s.mach.bus.Y))

/-- XORW: `Z = xor_w(X, Y)` (R133). -/
def execXorw (s : State) : Host.Outcome State Fault Refusal :=
  s.answer (s.mach.driveZ (xorW s.mach.bus.X s.mach.bus.Y))

/-- ROTL: `Z = rotl_w(X, Y)` (R134). -/
def execRotl (s : State) : Host.Outcome State Fault Refusal :=
  s.answer (s.mach.driveZ (rotlW s.mach.bus.X s.mach.bus.Y.toNat))

/-- ROTR: `Z = rotr_w(X, Y)` (R135). -/
def execRotr (s : State) : Host.Outcome State Fault Refusal :=
  s.answer (s.mach.driveZ (rotrW s.mach.bus.X s.mach.bus.Y.toNat))

end Sys2Proof.Machine
end

