-- ==== Sys2Proof/Machine/Dispatch.lean ====
section
/-! DEFINITION. One arm per operation of 30_encoding.md R104, in the table's order. -/

namespace Sys2Proof.Machine

def exec (i : Instr) (s : State) : Host.Outcome State Fault Refusal :=
  match i with
  | .encode => Sys2Proof.Machine.execEncode s
  | .decode => Sys2Proof.Machine.execDecode s
  | .addw => Sys2Proof.Machine.execAddw s
  | .subw => Sys2Proof.Machine.execSubw s
  | .xorw => Sys2Proof.Machine.execXorw s
  | .rotl => Sys2Proof.Machine.execRotl s
  | .rotr => Sys2Proof.Machine.execRotr s
  | .pqsel => Sys2Proof.Machine.execPqsel s
  | .setups => Sys2Proof.Machine.execSetups s
  | .kfold => Sys2Proof.Machine.execKfold s
  | .sseed => Sys2Proof.Machine.execSseed s
  | .smix => Sys2Proof.Machine.execSmix s
  | .whiten => Sys2Proof.Machine.execWhiten s
  | .encrnd n => Sys2Proof.Machine.execEncrnd n s
  | .unwhiten => Sys2Proof.Machine.execUnwhiten s
  | .decrnd n => Sys2Proof.Machine.execDecrnd n s
  | .pack off => Sys2Proof.Machine.execPack off s
  | .unpack off => Sys2Proof.Machine.execUnpack off s

end Sys2Proof.Machine
end

