-- ==== Sys2Proof/Machine/Sequencer.lean ====
section
/-! DEFINITION. The hardwired sequencer (10_state.md R38; 43_encrypt.md R192, 44_decrypt.md R212): the lines of a command,
which depend on `(w, r, b)` and `OP` alone (R49), and what one step does: sample `START`, or perform one line. -/

namespace Sys2Proof.Machine

/-- An operation on the select lines. -/
def issueLine (i : Instr) (route : Route) : SeqItem := .issue (encode i) route

/-- The offset `u` as an `ARG`. -/
def offsetU (p : Params) : BitVec 8 := BitVec.ofNat 8 p.u

/-- `A <- PACK 0`, `B <- PACK u` (R192). -/
def loadLines (p : Params) : List SeqItem := [issueLine (.pack 0) .zToA, issueLine (.pack (offsetU p)) .zToB]

/-- SETUPS as its expansion: KFOLD, SSEED, the zeroing, `n_mix` times SMIX (R110, R168). -/
def setupLines (p : Params) : List SeqItem :=
  [issueLine .kfold .plain, issueLine .sseed .plain, .clearMix] ++ List.replicate p.nMix (issueLine .smix .plain)

/-- `for RND = 1 .. n: ENCRND RND` (R192); the round index of the word comes from `RND`. -/
def encryptLines : Nat → List SeqItem
  | 0 => []
  | n + 1 => encryptLines n ++ [.setRnd (BitVec.ofNat 8 (n + 1)), issueLine (.encrnd 0) .rnd]

/-- `for RND = n down to 1: DECRND RND` (R212). -/
def decryptLines : Nat → List SeqItem
  | 0 => []
  | n + 1 => .setRnd (BitVec.ofNat 8 (n + 1)) :: issueLine (.decrnd 0) .rnd :: decryptLines n

/-- `UNPACK 0` with `X = A`, `UNPACK u` with `X = B`, `STATUS <- OK` (R192). -/
def storeLines (p : Params) : List SeqItem :=
  [issueLine (.unpack 0) .xFromA, issueLine (.unpack (offsetU p)) .xFromB, .finish]

/-- The lines between SETUPS and the first UNPACK, by direction (R192, R212). -/
def transformLines (p : Params) (op : BitVec 1) : List SeqItem :=
  if op = 0 then issueLine .whiten .plain :: encryptLines p.r.val
  else decryptLines p.r.val ++ [issueLine .unwhiten .plain]

/-- All lines of a command: the length tests and the operations (R192, R212). -/
def commandLines (p : Params) (op : BitVec 1) : List SeqItem :=
  .check :: (loadLines p ++ setupLines p ++ transformLines p op ++ storeLines p)

/-- The operation a host command names: `OPW = 0x0000 + OP` (R105). -/
def hostCommandWord (op : BitVec 1) : BitVec 16 := 0x0000#16 + op.setWidth 16

/-- Accepting `START`: `BUSY` is 1 from here, `DONE` is 0, and the sequencer stands before the command's first line
(R41, R192). The pulse is consumed (log 9). -/
def beginCommand {p : Params} (m : Mach p) : Mach p :=
  { m with
    inp := { m.inp with START := false }
    out := { m.out with BUSY := true, DONE := false }
    seq := commandLines p m.inp.OP }

/-- A `START` pulse while `BUSY` is 1 is not sampled: it is ignored (R40, R286; log 9). -/
def dropPulse {p : Params} (m : Mach p) : Mach p :=
  if m.out.BUSY then { m with inp := { m.inp with START := false } } else m

/-- The core between commands: it "does nothing until the host gives `START`", which is sampled only while `BUSY` is 0
(R40, R281). -/
def idleStep {p : Params} (m : Mach p) : Mach p := if m.inp.START && !m.out.BUSY then beginCommand m else dropPulse m

/-- The register moves of the sequencer applied to the answer of an operation. -/
def routeAnswer (route : Route) : Host.Outcome State Fault Refusal → Host.Outcome State Fault Refusal
  | .next s => .next ⟨s.params, routeOut route s.mach⟩
  | .fault f => .fault f
  | .refused r => .refused r

/-- One operation issued on the select lines: decoded, performed, its result routed; a reserved word is refused (R106,
R111). -/
def issueWord {p : Params} (word : BitVec 16) (route : Route) (m : Mach p) : Host.Outcome State Fault Refusal :=
  match decodeFor p (routeWord route word m) with
  | .ok i => routeAnswer route (exec i ⟨p, routeIn route m⟩)
  | .error _ => .refused (.reservedWord (routeWord route word m))

/-- The length tests as a line of a command (R191, R211). -/
def checkStep {p : Params} (m : Mach p) : Mach p :=
  match lengthError p m.inp with
  | some e => raise e m
  | none => m

/-- One line of the sequencer; `m` is the core with that line removed. -/
def performLine {p : Params} (item : SeqItem) (m : Mach p) : Host.Outcome State Fault Refusal :=
  match item with
  | .check => .next ⟨p, checkStep m⟩
  | .issue word route => issueWord word route m
  | .clearMix => .next ⟨p, m.setWork (clearMixWork m.work)⟩
  | .setRnd i => .next ⟨p, m.setWork (m.work.setRND i)⟩
  | .finish => .next ⟨p, complete m⟩

/-- One step of a core. -/
def advance {p : Params} (m : Mach p) : Host.Outcome State Fault Refusal :=
  match m.seq with
  | [] => .next ⟨p, idleStep m⟩
  | item :: rest => performLine item (dropPulse (m.setSeq rest))

end Sys2Proof.Machine
end

