-- ==== Sys2Proof/Machine/Step.lean ====
section
/-! DEFINITION. One step of the machine. There is no program counter and no fetch (10_state.md R38): the next operation is
the one at the head of the sequencer's lines, and with no line left the core waits for `START`. -/

namespace Sys2Proof.Machine

/-- One step: the core samples `START` when idle, or performs the sequencer's next line. -/
def step (s : State) : Host.Outcome State Fault Refusal := advance s.mach

/-- `s` with an operation word on the select lines, before whatever the sequencer has still to perform: the place where
`step` takes its next operation from (log 8). -/
def State.withFetchWord (s : State) (nbits w : Nat) : State :=
  ⟨s.params, s.mach.setSeq (.issue (BitVec.ofNat 16 (w % 2 ^ nbits)) .plain :: s.mach.seq)⟩

end Sys2Proof.Machine
end

