-- ==== Sys2Proof/Reference.lean ====
section
/-! DEFINITION. RC5 as plain mathematics, written a second time from the source's steps (42_key_scheduler.md,
43_encrypt.md, 44_decrypt.md) with the library's operations and tables as functions of an index; no part of the machine
uses it. The statements compare the machine with it. -/

namespace Sys2Proof.Reference

/-- A table as a function of its index; no use of it leaves the table. -/
def tableWord {w t : Nat} (S : Vector (BitVec w) t) (i : Nat) : BitVec w := if h : i < t then S[i] else 0

/-- The number made of `n` bytes, the first least significant (R73). -/
def littleEndian (bytes : Nat → Byte) (n : Nat) : Nat := ∑ k ∈ Finset.range n, (bytes k).toNat * 2 ^ (8 * k)

/-- The two words of a block of `2u` bytes: "First `u` bytes → `A`, next `u` bytes → `B`" (R73). -/
def blockWords (p : Params) (bytes : Nat → Byte) : Word p.width × Word p.width :=
  (BitVec.ofNat _ (littleEndian bytes p.u), BitVec.ofNat _ (littleEndian (fun k => bytes (p.u + k)) p.u))

/-- The bytes of a block of two words (R73). -/
def blockByte (p : Params) (ab : Word p.width × Word p.width) (k : Nat) : Byte :=
  if k < p.u then ab.1.extractLsb' (8 * k) 8 else ab.2.extractLsb' (8 * (k - p.u)) 8

/-- §4.3 steps 3 and 4: the initial additions, then rounds `1 .. n`. -/
def encrypt {w : Nat} (S : Nat → BitVec w) : Nat → BitVec w × BitVec w → BitVec w × BitVec w
  | 0, ab => (ab.1 + S 0, ab.2 + S 1)
  | n + 1, ab =>
    let x := encrypt S n ab
    let a := (x.1 ^^^ x.2).rotateLeft x.2.toNat + S (2 * (n + 1))
    (a, (x.2 ^^^ a).rotateLeft a.toNat + S (2 * (n + 1) + 1))

/-- §4.4: rounds `n .. 1` undone, then the initial additions undone. -/
def decrypt {w : Nat} (S : Nat → BitVec w) : Nat → BitVec w × BitVec w → BitVec w × BitVec w
  | 0, ab => (ab.1 - S 0, ab.2 - S 1)
  | n + 1, ab =>
    let b := (ab.2 - S (2 * (n + 1) + 1)).rotateRight ab.1.toNat ^^^ ab.1
    decrypt S n ((ab.1 - S (2 * (n + 1))).rotateRight b.toNat ^^^ b, b)

/-- The state of the mixing loop of §4.2 step 3: the source's `S`, `L`, `A`, `B`, `i`, `j`. -/
structure Mix (w : Nat) where
  S : Nat → BitVec w
  L : Nat → BitVec w
  A : BitVec w
  B : BitVec w
  i : Nat
  j : Nat

/-- One iteration of §4.2 step 3 with tables of `t` and `c` words. -/
def mixStep {w : Nat} (t c : Nat) (x : Mix w) : Mix w :=
  let a := (x.S x.i + x.A + x.B).rotateLeft 3
  let b := (x.L x.j + a + x.B).rotateLeft (a + x.B).toNat
  { S := Function.update x.S x.i a
    L := Function.update x.L x.j b
    A := a
    B := b
    i := (x.i + 1) % t
    j := (x.j + 1) % c }

/-- §4.2 steps 1, 2 and 3 before the first iteration, for a key of `b` bytes. -/
def mixStart (p : Params) (key : Nat → Byte) : Mix p.width.bits :=
  { S := fun i => magicP p.width + BitVec.ofNat _ i * magicQ p.width
    L := fun m => BitVec.ofNat _
      (littleEndian (fun k => if m * p.u + k < p.b.val then key (m * p.u + k) else 0) p.u)
    A := 0
    B := 0
    i := 0
    j := 0 }

/-- The expanded table of a key (§4.2 step 4). -/
def expandedTable (p : Params) (key : Nat → Byte) : Nat → Word p.width :=
  ((mixStep p.t p.c)^[p.nMix] (mixStart p key)).S

end Sys2Proof.Reference
end

