-- ==== Sys2Proof/Machine/HostPort.lean ====
section
/-! DEFINITION. What the host can do (70_reset_and_hazards.md R284 to R288): load the inputs while no command is in flight,
give `START`, apply reset, and read the outputs while they are valid. -/

namespace Sys2Proof.Machine

/-- A move of the host (R284, R282). -/
inductive HostMove where
  /-- One byte of `KEY`. -/
  | keyByte (off : Nat) (v : Byte)
  /-- One byte of `DIN`. -/
  | blockByte (off : Nat) (v : Byte)
  /-- `KLEN` and `DLEN`. -/
  | lengths (klen dlen : BitVec 16)
  /-- `OP` and the `START` pulse. -/
  | start (op : BitVec 1)
  /-- Reset. -/
  | reset
  deriving DecidableEq, Repr

/-- A free `STATUS` among the codes a command can leave (R252, R281). -/
def freeStatus (stamp : Nat) : Status :=
  if Config.freeNat stamp 11 % 3 = 0 then .ok
  else if Config.freeNat stamp 11 % 3 = 1 then .eBlockSize
  else .eKeyLength

/-- A `DOUT` of free bytes (R281, R282: "any mixture of old and new bytes"). -/
def freeBlock (stamp : Nat) : Nat → Memory
  | 0 => []
  | k + 1 => (freeBlock stamp k).write k (BitVec.ofNat 8 (Config.freeNat stamp (1100 + k)))

/-- Reset of a running core: any command is abandoned, `BUSY = 0`, `DONE = 0`, everything else the core owns is
unspecified; the host-owned inputs are not touched (R50, R281, R282). -/
def applyReset {p : Params} (m : Mach p) : Mach p :=
  { m with
    out :=
      { BUSY := false
        DONE := false
        STATUS := freeStatus m.free
        DOUT := freeBlock m.free p.blockBytes }
    work := Work.unspecified p m.free
    bus := m.bus.undriven m.free
    seq := []
    free := m.free + 1 }

/-- A command has been given and has not ended: `BUSY` is 1, or a pulse stands that the core has not sampled (R285). -/
def Mach.inFlight {p : Params} (m : Mach p) : Bool := m.out.BUSY || m.inp.START

/-- A host move that changes the inputs: refused from `START` until `DONE` (R285; log 23). -/
def State.put (s : State) (inp : HostIn) : Host.Outcome State Fault Refusal :=
  if s.mach.inFlight then .refused .inputsHeld else s.answer { s.mach with inp := inp }

/-- The answer to a host move (R284 to R286): a byte beyond a buffer has nowhere to go (R40); the pulse is sampled as it is
given, so that `BUSY` is 1 from `START` (R41; log 26). -/
def hostMove (move : HostMove) (s : State) : Host.Outcome State Fault Refusal :=
  match move with
  | .keyByte off v =>
    if off < keyCapacity then s.put { s.mach.inp with KEY := s.mach.inp.KEY.write off v }
    else .fault (.noSuchByte .KEY off)
  | .blockByte off v =>
    if off < dinCapacity then s.put { s.mach.inp with DIN := s.mach.inp.DIN.write off v }
    else .fault (.noSuchByte .DIN off)
  | .lengths klen dlen => s.put { s.mach.inp with KLEN := klen, DLEN := dlen }
  | .start op =>
    if s.mach.inFlight then .refused .startWhileBusy
    else s.answer (idleStep { s.mach with inp := { s.mach.inp with OP := op, START := true } })
  | .reset => s.answer (applyReset s.mach)

/-- `STATUS` as the host may read it: valid only while `DONE` is 1 (R287). -/
def hostStatus {p : Params} (m : Mach p) : Option Status := if m.out.DONE then some m.out.STATUS else none

/-- The 2-bit `STATUS` port as the host may read it (R41, R251, R287). -/
def hostStatusPort {p : Params} (m : Mach p) : Option (BitVec 2) := (hostStatus m).map statusCode

/-- The output block may be read: `DONE` is 1 and `STATUS` is OK (R287). -/
def Mach.outputValid {p : Params} (m : Mach p) : Bool := m.out.DONE && m.out.STATUS == .ok

/-- `DOUT` as the host may read it: valid only while `DONE` is 1 and `STATUS` is OK (R287; D7). At any other time the spec
leaves the reading open (R287, U5); the model answers no block. DESIGN CHOICE (log 13). -/
def hostBlock {p : Params} (m : Mach p) : Option (List Byte) :=
  if m.outputValid then some (readBytes m.out.DOUT 0 p.blockBytes) else none

/-- One byte of a buffer as the host reads it; a byte beyond the buffer does not exist (R70). A byte of `DOUT` is handed
over only while it is valid, that is after `DONE` (R80, R84, R287); at any other time the spec leaves the reading open
(R287, U5) and the model answers no byte. DESIGN CHOICE (log 13). -/
def hostReadByte {p : Params} (space : Space) (off : Nat) (m : Mach p) : Except Fault Byte :=
  match space with
  | .KEY => if off < keyCapacity then .ok (m.inp.KEY.read off) else .error (.noSuchByte .KEY off)
  | .DIN => if off < dinCapacity then .ok (m.inp.DIN.read off) else .error (.noSuchByte .DIN off)
  | .DOUT =>
    if off < p.blockBytes then
      if m.outputValid then .ok (m.out.DOUT.read off) else .error (.outputNotValid off)
    else .error (.noSuchByte .DOUT off)

end Sys2Proof.Machine
end

