-- ==== Sys2Proof/Safety.lean ====
section
/-! DEFINITION. What a safe run of the core is: the invariant of its state and the steps that answer a next state. -/

namespace Sys2Proof.Machine

/-- A command in flight still has its end before it: while `BUSY` is 1 the last line is the end of the command (R41,
R290). -/
def endsWithFinish (l : List SeqItem) : Bool := l.getLast? == some .finish

/-- The invariant of a core: the three buffers are canonical and hold no byte beyond their sizes (R70), the constant
buses carry the constants (R150), no command has ended with E_WIDTH (R252), `BUSY` and `DONE` are never both 1 (R41),
and a busy core has the end of its command before it (R290). -/
def Mach.Inv {p : Params} (m : Mach p) : Prop :=
  m.inp.KEY.wf keyCapacity = true ∧
  m.inp.DIN.wf dinCapacity = true ∧
  m.out.DOUT.wf p.blockBytes = true ∧
  m.bus.P = magicP p.width ∧
  m.bus.Q = magicQ p.width ∧
  m.out.STATUS ≠ .eWidth ∧
  (m.out.BUSY = true → m.out.DONE = false) ∧
  (m.out.BUSY = true → endsWithFinish m.seq = true)

/-- The invariant of the machine's state. -/
def State.Inv (s : State) : Prop := s.mach.Inv

/-- A state from which the machine steps. -/
def State.Runs (s : State) : Prop := ∃ t, step s = .next t

/-- The host has put in a command with the right lengths (R284). -/
def Mach.LengthsRight {p : Params} (m : Mach p) : Prop :=
  m.inp.DLEN.toNat = p.blockBytes ∧ m.inp.KLEN.toNat = p.b.val

end Sys2Proof.Machine
end

