-- ==== Sys2Proof/Certificates/Slice0/Obligations.lean ====
section
/-! DEFINITION. The statements for the provers. A core is `⟨p, m⟩`: parameters `p` and its registers, buffers and ports
`m`, so every statement is over all parameter sets `RC5-w/r/b`. A result stated as an equality of cores is at the same
time the operation's frame: every field that it does not name keeps its value. -/

open Sys2Proof Sys2Proof.Machine

/-! ### Encoding -/

/-- Decoding the operation word of an operation gives it back, with every `ARG` the core's parameters allow, and the
word of an operation whose `ARG` they do not allow is reserved (30_encoding.md sections 1 to 4). -/
def Obligations.EncodeThenDecodeReturnsOperation : Prop :=
  ∀ (p : Params) (i : Instr),
    (i.wf p = true → decodeFor p (encode i) = .ok i) ∧
    (i.wf p = false → decodeFor p (encode i) = .error .argumentRange)

/-- Every word has one meaning: the operation a word decodes to has that word as its operation word. -/
def Obligations.DecodeThenEncodeReturnsWord : Prop :=
  ∀ (x : BitVec 16) (i : Instr), decode x = .ok i → encode i = x

/-- No word selects two rows of the opcode map. -/
def Obligations.NoWordSelectsTwoRows : Prop :=
  ∀ (x : BitVec 16) (row row' : OpcodeRow), row ∈ opcodeRows → row' ∈ opcodeRows →
    row.selects x = true → row'.selects x = true → row.mnemonic = row'.mnemonic

/-- The words that select no row of the opcode map are exactly those the row decoder `decode` rejects. It names the row
of a word before the range of `ARG` is checked (log 16); a word whose `ARG` the core does not allow selects a row and is
reserved all the same, by `decodeFor`, as `EncodeThenDecodeReturnsOperation` says. -/
def Obligations.WordsOfNoRowAreReserved : Prop :=
  ∀ x : BitVec 16, (∀ row ∈ opcodeRows, row.selects x = false) ↔ ∃ e, decode x = .error e

/-- One word of each unit, written out from the opcode map, decodes to its operation. -/
def Obligations.SampleWordsDecode : Prop :=
  decode 0x0000#16 = .ok .encode ∧ decode 0x0001#16 = .ok .decode ∧
  decode 0x0013#16 = .ok .rotl ∧ decode 0x0020#16 = .ok .pqsel ∧
  decode 0x0033#16 = .ok .smix ∧ decode 0x0C41#16 = .ok (.encrnd 12) ∧
  decode 0x0450#16 = .ok (.pack 4) ∧ decode 0x0113#16 = .error .argument ∧
  decode 0x0034#16 = .error .select ∧ decode 0x0060#16 = .error .unit

/-- The host's one bit names a command for each of its values: 0 is ENCODE and 1 is DECODE. -/
def Obligations.HostBitNamesACommand : Prop :=
  ∀ (p : Params) (op : BitVec 1),
    decodeFor p (hostCommandWord op) = .ok (if op = 0 then .encode else .decode)

/-! ### Parameters -/

/-- The derived constants are those of 00_scope.md section 3 and lie in its ranges: `t = 2(r+1)`, `n_mix = 3 max(t, c)`,
and `L` has room for the key and no word to spare. -/
def Obligations.DerivedConstantsStayInRange : Prop :=
  ∀ p : Params,
    (p.u = 2 ∨ p.u = 4 ∨ p.u = 8) ∧ p.width.bits = 8 * p.u ∧ p.blockBytes = 2 * p.u ∧
    (p.t = 2 * (p.r.val + 1) ∧ 2 ≤ p.t ∧ p.t ≤ 512 ∧ p.t % 2 = 0) ∧
    (1 ≤ p.c ∧ p.c ≤ 128 ∧ p.b.val ≤ p.c * p.u ∧ (p.b.val ≠ 0 → (p.c - 1) * p.u < p.b.val)) ∧
    (p.nMix = 3 * max p.t p.c ∧ 6 ≤ p.nMix ∧ p.nMix ≤ 1536)

/-- Building a core from a number of bits: 16, 32 and 64 give a core of that width, every other number gives E_WIDTH. -/
def Obligations.OnlyThreeWidthsBuildACore : Prop :=
  ∀ (w : Nat) (r b : Fin 256),
    ((w = 16 ∨ w = 32 ∨ w = 64) →
      ∃ p, Params.make w r b = .ok p ∧ p.width.bits = w ∧ p.r = r ∧ p.b = b) ∧
    (¬(w = 16 ∨ w = 32 ∨ w = 64) → Params.make w r b = .error .eWidth)

/-- The magic constants: all odd, `P` and `Q` differ, each has its top bit set, the 16-bit ones are the leading bits of
the 32-bit ones, and so the 64-bit ones, `P` with its lowest bit set. The values are the spec's from general knowledge
(log 3). -/
def Obligations.MagicConstantsAreOddAndLeadingBits : Prop :=
  (∀ W : Width,
    (magicP W).toNat % 2 = 1 ∧ (magicQ W).toNat % 2 = 1 ∧ magicP W ≠ magicQ W ∧
    2 ^ (W.bits - 1) ≤ (magicP W).toNat ∧ 2 ^ (W.bits - 1) ≤ (magicQ W).toNat) ∧
  (magicP .w32).toNat / 2 ^ 16 = (magicP .w16).toNat ∧ (magicQ .w32).toNat / 2 ^ 16 = (magicQ .w16).toNat ∧
  (magicQ .w64).toNat / 2 ^ 32 = (magicQ .w32).toNat ∧ (magicP .w64).toNat / 2 ^ 32 + 1 = (magicP .w32).toNat

/-- PQSEL completes and drives the constants of the core's width on the constant buses, and nothing else changes. The
values are the spec's from general knowledge (log 3); holding the buses in the state is the model's choice (log 7). -/
def Obligations.PqselDrivesTheConstants : Prop :=
  ∀ (p : Params) (m : Mach p), ∃ P Q : Word p.width,
    exec .pqsel ⟨p, m⟩ = .next ⟨p, { m with bus := { m.bus with P := P, Q := Q } }⟩ ∧
    (p.width = .w16 → P.toNat = 0xB7E1 ∧ Q.toNat = 0x9E37) ∧
    (p.width = .w32 → P.toNat = 0xB7E15163 ∧ Q.toNat = 0x9E3779B9) ∧
    (p.width = .w64 → P.toNat = 0xB7E151628AED2A6B ∧ Q.toNat = 0x9E3779B97F4A7C15)

/-! ### The word arithmetic unit -/

/-- ADDW, operation word 0x0010, completes for all operands with `(X + Y) mod 2^w` on `Z` and nothing else changed, no
flag and no error; the operation is commutative and associative. -/
def Obligations.AddwPutsModularSumOnZ : Prop :=
  decode 0x0010#16 = .ok .addw ∧
  (∀ (p : Params) (m : Mach p), ∃ z : Word p.width,
    z.toNat = (m.bus.X.toNat + m.bus.Y.toNat) % 2 ^ p.width.bits ∧
    exec .addw ⟨p, m⟩ = .next ⟨p, { m with bus := { m.bus with Z := z } }⟩) ∧
  (∀ (w : Nat) (x y z : BitVec w), addW x y = addW y x ∧ addW (addW x y) z = addW x (addW y z))

/-- SUBW, operation word 0x0011, completes for all operands with the residue of `X - Y` modulo `2^w` on `Z` and nothing
else changed, no flag and no error; `X - X = 0` and a subtraction undoes an addition. -/
def Obligations.SubwPutsModularDifferenceOnZ : Prop :=
  decode 0x0011#16 = .ok .subw ∧
  (∀ (p : Params) (m : Mach p), ∃ z : Word p.width,
    (z.toNat : Int) = ((m.bus.X.toNat : Int) - m.bus.Y.toNat) % 2 ^ p.width.bits ∧
    exec .subw ⟨p, m⟩ = .next ⟨p, { m with bus := { m.bus with Z := z } }⟩) ∧
  (∀ (w : Nat) (x y : BitVec w), subW x x = 0 ∧ subW (addW x y) y = x)

/-- XORW completes for all operands: bit `k` of `Z` is 1 exactly when bit `k` of `X` and of `Y` differ; nothing else
changes. That `xor` is bitwise is the spec's from general knowledge (G4). -/
def Obligations.XorwDiffersBitByBit : Prop :=
  ∀ (p : Params) (m : Mach p), ∃ z : Word p.width,
    (∀ k, k < p.width.bits → (z.getLsbD k = true ↔ m.bus.X.getLsbD k ≠ m.bus.Y.getLsbD k)) ∧
    exec .xorw ⟨p, m⟩ = .next ⟨p, { m with bus := { m.bus with Z := z } }⟩

/-- ROTL completes for all operands: bit `k` of `X` moves to bit `(k + Y mod w) mod w` of `Z`, a zero residue moves
nothing, and nothing else changes. The bit movement is the spec's from general knowledge (G3). -/
def Obligations.RotlMovesEveryBitUp : Prop :=
  ∀ (p : Params) (m : Mach p), ∃ z : Word p.width,
    (∀ k, k < p.width.bits →
      z.getLsbD ((k + m.bus.Y.toNat % p.width.bits) % p.width.bits) = m.bus.X.getLsbD k) ∧
    (m.bus.Y.toNat % p.width.bits = 0 → z = m.bus.X) ∧
    exec .rotl ⟨p, m⟩ = .next ⟨p, { m with bus := { m.bus with Z := z } }⟩

/-- ROTR completes for all operands: bit `k` of `X` moves to bit `(k - Y mod w) mod w` of `Z`, a zero residue moves
nothing, and nothing else changes. The bit movement is the spec's from general knowledge (G3). -/
def Obligations.RotrMovesEveryBitDown : Prop :=
  ∀ (p : Params) (m : Mach p), ∃ z : Word p.width,
    (∀ k, k < p.width.bits →
      z.getLsbD ((k + (p.width.bits - m.bus.Y.toNat % p.width.bits)) % p.width.bits) = m.bus.X.getLsbD k) ∧
    (m.bus.Y.toNat % p.width.bits = 0 → z = m.bus.X) ∧
    exec .rotr ⟨p, m⟩ = .next ⟨p, { m with bus := { m.bus with Z := z } }⟩

/-- The inverse laws of the word primitives and the grouping laws of addition and xor (the spec's inference from the
primitives' definitions). -/
def Obligations.WordPrimitivesUndoEachOther : Prop :=
  ∀ (w : Nat) (x y z : BitVec w),
    subW (addW x y) y = x ∧ addW (subW x y) y = x ∧ xorW (xorW x y) y = x ∧
    rotrW (rotlW x y.toNat) y.toNat = x ∧ rotlW (rotrW x y.toNat) y.toNat = x ∧
    addW x y = addW y x ∧ addW (addW x y) z = addW x (addW y z) ∧
    xorW x y = xorW y x ∧ xorW (xorW x y) z = xorW x (xorW y z)

/-- The laws of the rotation amount at the three widths: only the residue matters, a wrapped sum rotates as the sum,
amounts add up, and a rotation is a bijection (the spec's inference from the primitives' definitions). -/
def Obligations.RotationAmountsAddUp : Prop :=
  ∀ (W : Width) (x y z : Word W) (n n' : Nat),
    rotlW x n = rotlW x (n % W.bits) ∧ rotrW x n = rotrW x (n % W.bits) ∧
    rotlW x (addW y z).toNat = rotlW x (y.toNat + z.toNat) ∧
    rotlW x (n + n') = rotlW (rotlW x n) n' ∧
    Function.Bijective (fun v : Word W => rotlW v n) ∧ Function.Bijective (fun v : Word W => rotrW v n)

/-! ### The key scheduler -/

/-- KFOLD completes and leaves in word `m` of `L` the little-endian number of key bytes `m*u` to `m*u + u - 1`, a
missing byte counting as zero; nothing else changes (the closed form is the spec's inference from the loop, the zeroed
`L` it starts from is log 20, the buses left alone are log 7). -/
def Obligations.KfoldGathersKeyBytesLittleEndian : Prop :=
  ∀ (p : Params) (m : Mach p), ∃ L : Vector (Word p.width) p.c,
    (∀ j (h : j < p.c), L[j].toNat = ∑ k ∈ Finset.range p.u,
      if j * p.u + k < p.b.val then (m.inp.KEY.read (j * p.u + k)).toNat * 2 ^ (8 * k) else 0) ∧
    exec .kfold ⟨p, m⟩ = .next ⟨p, { m with work := { m.work with L := L } }⟩

/-- SSEED completes and leaves `(P + i * Q) mod 2^w` in every word `i` of `S`; nothing else changes (the closed form is
the spec's inference from the loop; the buses left alone are log 7). -/
def Obligations.SseedFillsArithmeticProgression : Prop :=
  ∀ (p : Params) (m : Mach p), ∃ S : Vector (Word p.width) p.t,
    (∀ i (h : i < p.t), S[i].toNat = ((magicP p.width).toNat + i * (magicQ p.width).toNat) % 2 ^ p.width.bits) ∧
    exec .sseed ⟨p, m⟩ = .next ⟨p, { m with work := { m.work with S := S } }⟩

/-- SMIX, operation word 0x0033, completes: `KA` and `S[I]` become `va`, then `KB` and `L[J]` become `vb`, which uses
the new `KA` in its sum and its amount; the indices advance cyclically and `N` counts; nothing else changes, no flag and
no error. That the sums leave the buses alone is the model's choice (log 7), and so is that `N`, of 11 bits, wraps to 0
after 2047, a count that no command reaches (log 11). -/
def Obligations.SmixPerformsOneIteration : Prop :=
  decode 0x0033#16 = .ok .smix ∧
  ∀ (p : Params) (m : Mach p) (va vb : Word p.width) (i : Fin p.t) (j : Fin p.c),
    va = (m.work.S[m.work.I] + m.work.KA + m.work.KB).rotateLeft 3 →
    vb = (m.work.L[m.work.J] + va + m.work.KB).rotateLeft (va + m.work.KB).toNat →
    i.val = (m.work.I.val + 1) % p.t →
    j.val = (m.work.J.val + 1) % p.c →
    exec .smix ⟨p, m⟩ = .next ⟨p,
      { m with
        work :=
          { m.work with
            KA := va
            KB := vb
            S := m.work.S.set m.work.I va
            L := m.work.L.set m.work.J vb
            I := i
            J := j
            N := m.work.N + 1 } }⟩

/-- SETUPS is its expansion: KFOLD, SSEED, the zeroing of `KA`, `KB`, `I`, `J`, `N` (of the two indices by log 20), then
`n_mix` times SMIX. -/
def Obligations.SetupsIsItsExpansion : Prop :=
  ∀ (p : Params) (m m1 m2 : Mach p) (ms : Nat → Mach p) (i : Fin p.t) (j : Fin p.c),
    exec .kfold ⟨p, m⟩ = .next ⟨p, m1⟩ →
    exec .sseed ⟨p, m1⟩ = .next ⟨p, m2⟩ →
    i.val = 0 → j.val = 0 →
    ms 0 = { m2 with work := { m2.work with KA := 0, KB := 0, I := i, J := j, N := 0 } } →
    (∀ k, k < p.nMix → exec .smix ⟨p, ms k⟩ = .next ⟨p, ms (k + 1)⟩) →
    exec .setups ⟨p, m⟩ = .next ⟨p, ms p.nMix⟩

/-- SETUPS completes with the reference's expanded table of the key in `S`, the counters at `N = n_mix`, `I = n_mix mod
t` and `J = n_mix mod c`, and `A`, `B`, `RND`, the ports, the buffers and the buses as they were. That the mixing starts
at `I = J = 0`, on which the table and the counters rest, is the spec's derivation (log 20); that the key scheduler
leaves the buses alone is the model's choice (log 7). -/
def Obligations.SetupsBuildsTheReferenceTable : Prop :=
  ∀ (p : Params) (m : Mach p), ∃ k : Work p,
    exec .setups ⟨p, m⟩ = .next ⟨p, { m with work := k }⟩ ∧
    (∀ i (h : i < p.t), k.S[i] = Reference.expandedTable p m.inp.KEY.read i) ∧
    k.N.toNat = p.nMix ∧ k.I.val = p.nMix % p.t ∧ k.J.val = p.nMix % p.c ∧
    k.A = m.work.A ∧ k.B = m.work.B ∧ k.RND = m.work.RND

/-- With `b = 0` there is one key word and `3t` iterations, KFOLD leaves that word zero, and SETUPS completes with a
table that depends on `(w, r)` only: not on the key buffer and not on what the core held before. -/
def Obligations.EmptyKeyGivesAKeyIndependentTable : Prop :=
  ∀ (p : Params), p.b.val = 0 →
    p.c = 1 ∧ p.nMix = 3 * p.t ∧
    (∀ m : Mach p, ∃ L : Vector (Word p.width) p.c, (∀ j (h : j < p.c), L[j] = 0) ∧
      exec .kfold ⟨p, m⟩ = .next ⟨p, { m with work := { m.work with L := L } }⟩) ∧
    ∃ S : Vector (Word p.width) p.t, ∀ m : Mach p, ∃ k : Work p,
      k.S = S ∧ exec .setups ⟨p, m⟩ = .next ⟨p, { m with work := k }⟩

/-- The table SETUPS builds depends on the first `b` key bytes and on nothing else the core holds. -/
def Obligations.TableDependsOnKeyBytesOnly : Prop :=
  ∀ (p : Params) (m m' n n' : Mach p),
    (∀ i, i < p.b.val → m.inp.KEY.read i = m'.inp.KEY.read i) →
    exec .setups ⟨p, m⟩ = .next ⟨p, n⟩ → exec .setups ⟨p, m'⟩ = .next ⟨p, n'⟩ → n.work.S = n'.work.S

/-! ### The round unit -/

/-- WHITEN, operation word 0x0040, completes: `A` gains `S[0]` and `B` gains `S[1]` modulo `2^w`; nothing else changes,
no flag and no error. That the sums leave the buses alone is the model's choice (log 7). -/
def Obligations.WhitenAddsFirstTwoTableWords : Prop :=
  decode 0x0040#16 = .ok .whiten ∧
  ∀ (p : Params) (m : Mach p) (h0 : 0 < p.t) (h1 : 1 < p.t),
    exec .whiten ⟨p, m⟩ = .next ⟨p,
      { m with work := { m.work with A := m.work.A + m.work.S[0], B := m.work.B + m.work.S[1] } }⟩

/-- UNWHITEN completes: `B` loses `S[1]` and `A` loses `S[0]` modulo `2^w`; nothing else changes (the formulas are the
spec's inference, log 21; the buses left alone are log 7). -/
def Obligations.UnwhitenSubtractsFirstTwoTableWords : Prop :=
  decode 0x0042#16 = .ok .unwhiten ∧
  ∀ (p : Params) (m : Mach p) (h0 : 0 < p.t) (h1 : 1 < p.t),
    exec .unwhiten ⟨p, m⟩ = .next ⟨p,
      { m with work := { m.work with A := m.work.A - m.work.S[0], B := m.work.B - m.work.S[1] } }⟩

/-- ENCRND `i` with `1 <= i <= r`, operation word `(i << 8) + 0x41`, completes: the new `A` is `((A xor B) rotated left
by B) + S[2i]`, the new `B` is `((B xor A) rotated left by A) + S[2i+1]` with that `A`; nothing else changes, no flag
and no error. For any two table words the round is a bijection on pairs of words. That the round unit leaves the buses
alone is the model's choice (log 7). -/
def Obligations.EncrndTransformsBothWords : Prop :=
  (∀ (p : Params) (i : BitVec 8), 1 ≤ i.toNat → i.toNat ≤ p.r.val →
    decodeFor p (BitVec.ofNat 16 (i.toNat * 2 ^ 8 + 0x41)) = .ok (.encrnd i) ∧
    ∀ (m : Mach p) (ha : 2 * i.toNat < p.t) (hb : 2 * i.toNat + 1 < p.t) (a b : Word p.width),
      a = (m.work.A ^^^ m.work.B).rotateLeft m.work.B.toNat + m.work.S[2 * i.toNat] →
      b = (m.work.B ^^^ a).rotateLeft a.toNat + m.work.S[2 * i.toNat + 1] →
      exec (.encrnd i) ⟨p, m⟩ = .next ⟨p, { m with work := { m.work with A := a, B := b } }⟩) ∧
  ∀ (p : Params) (s s' : Word p.width), Function.Bijective fun ab : Word p.width × Word p.width =>
    ((ab.1 ^^^ ab.2).rotateLeft ab.2.toNat + s,
     (ab.2 ^^^ ((ab.1 ^^^ ab.2).rotateLeft ab.2.toNat + s)).rotateLeft
       ((ab.1 ^^^ ab.2).rotateLeft ab.2.toNat + s).toNat + s')

/-- DECRND `i` with `1 <= i <= r` completes: `B` is recovered first, with the `A` the round begins with, then `A` with
that `B`; nothing else changes (the formulas are the spec's inference, log 21; the buses left alone are log 7). -/
def Obligations.DecrndRecoversBothWords : Prop :=
  ∀ (p : Params) (i : BitVec 8), 1 ≤ i.toNat → i.toNat ≤ p.r.val →
    decodeFor p (BitVec.ofNat 16 (i.toNat * 2 ^ 8 + 0x43)) = .ok (.decrnd i) ∧
    ∀ (m : Mach p) (ha : 2 * i.toNat < p.t) (hb : 2 * i.toNat + 1 < p.t) (a b : Word p.width),
      b = (m.work.B - m.work.S[2 * i.toNat + 1]).rotateRight m.work.A.toNat ^^^ m.work.A →
      a = (m.work.A - m.work.S[2 * i.toNat]).rotateRight b.toNat ^^^ b →
      exec (.decrnd i) ⟨p, m⟩ = .next ⟨p, { m with work := { m.work with A := a, B := b } }⟩

/-- DECRND `i` undoes ENCRND `i` and the other way round, and so do UNWHITEN and WHITEN (the spec's inference). -/
def Obligations.RoundOperationsUndoEachOther : Prop :=
  (∀ (p : Params) (i : BitVec 8) (m n : Mach p),
    exec (.encrnd i) ⟨p, m⟩ = .next ⟨p, n⟩ ↔ exec (.decrnd i) ⟨p, n⟩ = .next ⟨p, m⟩) ∧
  (∀ (p : Params) (m n : Mach p),
    exec .whiten ⟨p, m⟩ = .next ⟨p, n⟩ ↔ exec .unwhiten ⟨p, n⟩ = .next ⟨p, m⟩)

/-- A round index of 0 or above `r`, and a block offset with `off + u > 2u`, are never issued; the operation is refused.
-/
def Obligations.ArgumentsOutOfRangeAreRefused : Prop :=
  (∀ (p : Params) (m : Mach p) (i : BitVec 8), (i.toNat = 0 ∨ p.r.val < i.toNat) →
    exec (.encrnd i) ⟨p, m⟩ = .refused (.roundIndexRange i) ∧
    exec (.decrnd i) ⟨p, m⟩ = .refused (.roundIndexRange i)) ∧
  (∀ (p : Params) (m : Mach p) (off : BitVec 8), 2 * p.u < off.toNat + p.u →
    exec (.pack off) ⟨p, m⟩ = .refused (.blockOffsetRange off) ∧
    exec (.unpack off) ⟨p, m⟩ = .refused (.blockOffsetRange off))

/-! ### The packer -/

/-- PACK `off` with `off + u <= 2u` completes with the little-endian number of the `u` bytes of `DIN` at `off` on `Z`;
nothing else changes. Holding `Z` in the state is the model's choice (log 7). -/
def Obligations.PackReadsLittleEndianWord : Prop :=
  ∀ (p : Params) (m : Mach p) (off : BitVec 8), off.toNat + p.u ≤ 2 * p.u → ∃ z : Word p.width,
    z.toNat = ∑ k ∈ Finset.range p.u, (m.inp.DIN.read (off.toNat + k)).toNat * 2 ^ (8 * k) ∧
    exec (.pack off) ⟨p, m⟩ = .next ⟨p, { m with bus := { m.bus with Z := z } }⟩

/-- UNPACK `off` with `off + u <= 2u` completes: byte `k` of `X` is at `off + k` of `DOUT` for every `k < u`, every
other byte of `DOUT` reads as before, and nothing else changes. The canonical form of `DOUT` is a premise; it is part of
the invariant. Holding `X` in the state is the model's choice (log 7). -/
def Obligations.UnpackWritesLittleEndianBytes : Prop :=
  ∀ (p : Params) (m : Mach p) (off : BitVec 8), off.toNat + p.u ≤ 2 * p.u → m.out.DOUT.wf p.blockBytes = true →
    ∃ d : Memory,
      (∀ k, k < p.u → (d.read (off.toNat + k)).toNat = m.bus.X.toNat / 2 ^ (8 * k) % 256) ∧
      (∀ a, (a < off.toNat ∨ off.toNat + p.u ≤ a) → d.read a = m.out.DOUT.read a) ∧
      d.wf p.blockBytes = true ∧
      exec (.unpack off) ⟨p, m⟩ = .next ⟨p, { m with out := { m.out with DOUT := d } }⟩

/-- `u` bytes written from a word read back as the word, and a word read from `u` bytes written back at the same offset
leaves the buffer as it was (the spec's inference). -/
def Obligations.StoredWordsLoadBack : Prop :=
  ∀ (p : Params) (mem : Memory) (size off : Nat) (x : Word p.width), off + p.u ≤ size → mem.wf size = true →
    loadWord p.width.bits (storeWord mem off x p.u) off p.u = x ∧
    storeWord mem off (loadWord p.width.bits mem off p.u) p.u = mem

/-! ### The host commands

A command given to a busy core is refused (`BusyCoreHoldsItsInputs`), so the statements are about a core whose `BUSY` is
0. -/

/-- On a core that is not busy, a command whose `DLEN` is not `2u` ends at once with `STATUS` E_BLOCK_SIZE, whatever
`KLEN` is; `BUSY` is 0, `DONE` is 1, the core is idle and nothing else has changed (R256): no byte of `DOUT`, no working
register. That E_BLOCK_SIZE is reported when `KLEN` is wrong too is the spec's own choice of order, on which it says
that a claim should not depend (R255, D6; log 12); for a right `KLEN` nothing here rests on it. -/
def Obligations.WrongBlockSizeEndsTheCommand : Prop :=
  ∀ (p : Params) (m n : Mach p), m.out.BUSY = false → m.inp.DLEN.toNat ≠ 2 * p.u →
    n = { m with out := { m.out with BUSY := false, DONE := true, STATUS := .eBlockSize }, seq := [] } →
    exec .encode ⟨p, m⟩ = .next ⟨p, n⟩ ∧ exec .decode ⟨p, m⟩ = .next ⟨p, n⟩

/-- On a core that is not busy, a command whose `DLEN` is `2u` and whose `KLEN` is not `b` ends at once with `STATUS`
E_KEY_LENGTH; `BUSY` is 0, `DONE` is 1, the core is idle and nothing else has changed. With `b = 0` every non-empty key
is an error. -/
def Obligations.WrongKeyLengthEndsTheCommand : Prop :=
  ∀ (p : Params) (m n : Mach p), m.out.BUSY = false → m.inp.DLEN.toNat = 2 * p.u → m.inp.KLEN.toNat ≠ p.b.val →
    n = { m with out := { m.out with BUSY := false, DONE := true, STATUS := .eKeyLength }, seq := [] } →
    exec .encode ⟨p, m⟩ = .next ⟨p, n⟩ ∧ exec .decode ⟨p, m⟩ = .next ⟨p, n⟩

/-- ENCODE with the right lengths on a core that is not busy completes: `DOUT` holds the bytes of the reference
encryption of the input block, every byte beyond the block reads as before, `STATUS` is OK, `BUSY` 0, `DONE` 1, the
host's inputs and the constant buses are as before and the core is idle. Nothing is said of the working storage, which
the spec calls unspecified here. The reference's table starts the mixing at `I = J = 0`, the spec's derivation (log 20).
-/
def Obligations.EncodeWritesTheReferenceCiphertext : Prop :=
  ∀ (p : Params) (m : Mach p), m.out.BUSY = false → m.LengthsRight → m.out.DOUT.wf p.blockBytes = true →
    ∃ n : Mach p,
    exec .encode ⟨p, m⟩ = .next ⟨p, n⟩ ∧
    (∀ k, k < p.blockBytes → n.out.DOUT.read k = Reference.blockByte p
      (Reference.encrypt (Reference.expandedTable p m.inp.KEY.read) p.r.val
        (Reference.blockWords p m.inp.DIN.read)) k) ∧
    (∀ a, p.blockBytes ≤ a → n.out.DOUT.read a = m.out.DOUT.read a) ∧
    n.out.STATUS = .ok ∧ n.out.BUSY = false ∧ n.out.DONE = true ∧
    n.inp = m.inp ∧ n.bus.P = m.bus.P ∧ n.bus.Q = m.bus.Q ∧ n.seq = []

/-- The same of DECODE with the reference decryption, whose formulas are the spec's inference (log 21), under the same
table (log 20). -/
def Obligations.DecodeWritesTheReferencePlaintext : Prop :=
  ∀ (p : Params) (m : Mach p), m.out.BUSY = false → m.LengthsRight → m.out.DOUT.wf p.blockBytes = true →
    ∃ n : Mach p,
    exec .decode ⟨p, m⟩ = .next ⟨p, n⟩ ∧
    (∀ k, k < p.blockBytes → n.out.DOUT.read k = Reference.blockByte p
      (Reference.decrypt (Reference.expandedTable p m.inp.KEY.read) p.r.val
        (Reference.blockWords p m.inp.DIN.read)) k) ∧
    (∀ a, p.blockBytes ≤ a → n.out.DOUT.read a = m.out.DOUT.read a) ∧
    n.out.STATUS = .ok ∧ n.out.BUSY = false ∧ n.out.DONE = true ∧
    n.inp = m.inp ∧ n.bus.P = m.bus.P ∧ n.bus.Q = m.bus.Q ∧ n.seq = []

/-- "For all supported `(w,r,b)`, all Keys of length `b`, and all Blocks of length `2u`": ENCODE completes with OK, and
a core with the same parameters, the same key and the block it wrote completes DECODE with OK and the first block, where
neither core is busy. -/
def Obligations.DecodeOfEncodeReturnsTheBlock : Prop :=
  ∀ (p : Params) (m : Mach p), m.out.BUSY = false → m.LengthsRight → m.out.DOUT.wf p.blockBytes = true →
    ∃ n : Mach p,
    exec .encode ⟨p, m⟩ = .next ⟨p, n⟩ ∧ n.out.STATUS = .ok ∧
    ∀ m' : Mach p, m'.out.BUSY = false → m'.LengthsRight → m'.out.DOUT.wf p.blockBytes = true →
      (∀ i, i < p.b.val → m'.inp.KEY.read i = m.inp.KEY.read i) →
      (∀ k, k < p.blockBytes → m'.inp.DIN.read k = n.out.DOUT.read k) →
      ∃ n' : Mach p, exec .decode ⟨p, m'⟩ = .next ⟨p, n'⟩ ∧ n'.out.STATUS = .ok ∧
        ∀ k, k < p.blockBytes → n'.out.DOUT.read k = m.inp.DIN.read k

/-- The converse (the spec's inference): DECODE of any block completes, and ENCODE of what it wrote gives the block
back. -/
def Obligations.EncodeOfDecodeReturnsTheBlock : Prop :=
  ∀ (p : Params) (m : Mach p), m.out.BUSY = false → m.LengthsRight → m.out.DOUT.wf p.blockBytes = true →
    ∃ n : Mach p,
    exec .decode ⟨p, m⟩ = .next ⟨p, n⟩ ∧ n.out.STATUS = .ok ∧
    ∀ m' : Mach p, m'.out.BUSY = false → m'.LengthsRight → m'.out.DOUT.wf p.blockBytes = true →
      (∀ i, i < p.b.val → m'.inp.KEY.read i = m.inp.KEY.read i) →
      (∀ k, k < p.blockBytes → m'.inp.DIN.read k = n.out.DOUT.read k) →
      ∃ n' : Mach p, exec .encode ⟨p, m'⟩ = .next ⟨p, n'⟩ ∧ n'.out.STATUS = .ok ∧
        ∀ k, k < p.blockBytes → n'.out.DOUT.read k = m.inp.DIN.read k

/-- A command is a pure function of its inputs: two cores with the same parameters whose lengths, first `b` key bytes
and first `2u` block bytes agree, neither busy, whatever else they hold, end a command with the same `STATUS` and, if it
is OK, the same block. -/
def Obligations.CommandResultDependsOnInputsOnly : Prop :=
  ∀ (p : Params) (i : Instr) (m m' : Mach p), (i = .encode ∨ i = .decode) →
    m.out.BUSY = false → m'.out.BUSY = false → m.inp.KLEN = m'.inp.KLEN → m.inp.DLEN = m'.inp.DLEN →
    (∀ a, a < p.b.val → m.inp.KEY.read a = m'.inp.KEY.read a) →
    (∀ a, a < p.blockBytes → m.inp.DIN.read a = m'.inp.DIN.read a) →
    m.out.DOUT.wf p.blockBytes = true → m'.out.DOUT.wf p.blockBytes = true →
    ∃ n n' : Mach p, exec i ⟨p, m⟩ = .next ⟨p, n⟩ ∧ exec i ⟨p, m'⟩ = .next ⟨p, n'⟩ ∧
      hostStatus n = hostStatus n' ∧ hostBlock n = hostBlock n'

/-- With `r = 0` the table has two words, SETUPS still runs 6 or more mixing iterations, and there is no round: on a
core that is not busy ENCODE writes `A + S[0]`, `B + S[1]` and DECODE writes `A - S[0]`, `B - S[1]`, where `S` is the
table SETUPS builds and `A`, `B` are the words of the input block, so each reverses the other. -/
def Obligations.ZeroRoundsAddTheFirstTableWords : Prop :=
  ∀ (p : Params) (m s : Mach p) (h0 : 0 < p.t) (h1 : 1 < p.t), p.r.val = 0 →
    m.out.BUSY = false → m.LengthsRight → m.out.DOUT.wf p.blockBytes = true → exec .setups ⟨p, m⟩ = .next ⟨p, s⟩ →
    p.t = 2 ∧ 6 ≤ p.nMix ∧
    ∃ e d : Mach p, exec .encode ⟨p, m⟩ = .next ⟨p, e⟩ ∧ exec .decode ⟨p, m⟩ = .next ⟨p, d⟩ ∧
      e.out.STATUS = .ok ∧ d.out.STATUS = .ok ∧
      Reference.blockWords p e.out.DOUT.read
        = ((Reference.blockWords p m.inp.DIN.read).1 + s.work.S[0],
           (Reference.blockWords p m.inp.DIN.read).2 + s.work.S[1]) ∧
      Reference.blockWords p d.out.DOUT.read
        = ((Reference.blockWords p m.inp.DIN.read).1 - s.work.S[0],
           (Reference.blockWords p m.inp.DIN.read).2 - s.work.S[1])

/-- Every command completes on every core that is not busy, and leaves `DONE` 1, `BUSY` 0 and one of the three outcomes:
OK exactly when both lengths are right, and never E_WIDTH. -/
def Obligations.EveryCommandCompletes : Prop :=
  ∀ (p : Params) (m : Mach p) (i : Instr), (i = .encode ∨ i = .decode) → m.out.BUSY = false → ∃ n : Mach p,
    exec i ⟨p, m⟩ = .next ⟨p, n⟩ ∧ n.out.DONE = true ∧ n.out.BUSY = false ∧
    (n.out.STATUS = .ok ∨ n.out.STATUS = .eBlockSize ∨ n.out.STATUS = .eKeyLength) ∧
    (n.out.STATUS = .ok ↔ m.LengthsRight)

/-! ### The machine -/

/-- The operation on the select lines is performed: when the head of the sequencer's lines puts a word there that
decodes to `i`, a step is `exec i` on the core with that line removed, a `START` pulse given while busy dropped, and the
sequencer's register moves before and after the operation. -/
def Obligations.StepPerformsTheIssuedOperation : Prop :=
  ∀ (p : Params) (m : Mach p) (word : BitVec 16) (route : Route) (rest : List SeqItem) (i : Instr),
    m.seq = .issue word route :: rest →
    decodeFor p (routeWord route word m) = .ok i →
    step ⟨p, m⟩ = routeAnswer route (exec i ⟨p, routeIn route (dropPulse { m with seq := rest })⟩)

/-- A reserved word on the select lines is refused. -/
def Obligations.StepRefusesReservedWords : Prop :=
  ∀ (p : Params) (m : Mach p) (word : BitVec 16) (route : Route) (rest : List SeqItem) (e : Reserved),
    m.seq = .issue word route :: rest →
    decodeFor p (routeWord route word m) = .error e →
    step ⟨p, m⟩ = .refused (.reservedWord (routeWord route word m))

/-- An idle core that is not busy samples a `START` pulse that stands: the step accepts the command of `OP` with `BUSY`
1 and `DONE` 0, and performs nothing yet. Without `START` the step changes nothing. That the pulse is consumed is the
model's choice (log 9); the host's own move gives the pulse and has it sampled at once (log 26;
`HostMovesWriteTheirInputs`). -/
def Obligations.IdleCoreWaitsForStart : Prop :=
  ∀ (p : Params) (m : Mach p), m.seq = [] → m.out.BUSY = false →
    (m.inp.START = true →
      step ⟨p, m⟩ = .next ⟨p,
        { m with
          inp := { m.inp with START := false }
          out := { m.out with BUSY := true, DONE := false }
          seq := commandLines p m.inp.OP }⟩) ∧
    (m.inp.START = false → step ⟨p, m⟩ = .next ⟨p, m⟩)

/-- Performed one operation at a time by the sequencer, a command ends in the very state that the command performed as
one step ends in. From an idle core with a `START` pulse standing, some number of steps, at most the lines of the
command and one more, gives the answer of `exec` for the command of `OP`; and from a core that is not busy to which the
host gives `START` with a direction, at most the lines of the command give the answer of `exec` for that direction. The
lines and the two views of a command are log 10. -/
def Obligations.SequencedCommandEqualsTheCommand : Prop :=
  (∀ (p : Params) (m : Mach p), m.seq = [] → m.out.BUSY = false → m.inp.START = true →
    ∃ k n, k ≤ (commandLines p m.inp.OP).length + 1 ∧
      Sys2Proof.core.run k ⟨p, m⟩ = .next ⟨p, n⟩ ∧
      exec (if m.inp.OP = 0 then .encode else .decode) ⟨p, { m with inp := { m.inp with START := false } }⟩
        = .next ⟨p, n⟩) ∧
  (∀ (p : Params) (m : Mach p) (op : BitVec 1), m.out.BUSY = false → m.inp.START = false →
    ∃ k s n, hostMove (.start op) ⟨p, m⟩ = .next s ∧ k ≤ (commandLines p op).length ∧
      Sys2Proof.core.run k s = .next ⟨p, n⟩ ∧
      exec (if op = 0 then .encode else .decode) ⟨p, { m with inp := { m.inp with OP := op } }⟩ = .next ⟨p, n⟩)

/-- Every step keeps the invariant. -/
def Obligations.StepKeepsTheInvariant : Prop :=
  ∀ s t : State, s.Inv → step s = .next t → t.Inv

/-- Every move of the host keeps the invariant. -/
def Obligations.HostMovesKeepTheInvariant : Prop :=
  ∀ (move : HostMove) (s t : State), s.Inv → hostMove move s = .next t → t.Inv

/-- The state after reset meets the invariant, whatever the parameters. -/
def Obligations.ResetMeetsTheInvariant : Prop :=
  State.reset.Inv ∧ ∀ p : Params, (Mach.reset p).Inv

/-- After reset `BUSY` and `DONE` are 0 and the sequencer is idle; a reset given by the host does the same to a core in
any state, at any point of a command, and leaves the host's inputs and the parameters alone. -/
def Obligations.ResetLeavesTheCoreIdle : Prop :=
  (∀ p : Params, (Mach.reset p).out.BUSY = false ∧ (Mach.reset p).out.DONE = false ∧ (Mach.reset p).seq = []) ∧
  (∀ (p : Params) (m : Mach p), ∃ n : Mach p, hostMove .reset ⟨p, m⟩ = .next ⟨p, n⟩ ∧
    n.out.BUSY = false ∧ n.out.DONE = false ∧ n.seq = [] ∧ n.inp = m.inp)

/-- Everything is total: every state steps, but for one whose select lines carry a reserved word, or, while the core is
busy, the word of a command, and those two refuse by name (the spec's inference that nothing else can fail, and its
treatment of reserved words and of a command given to a busy core, log 28). -/
def Obligations.EveryStateStepsUnlessItsWordIsRefused : Prop :=
  ∀ (p : Params) (m : Mach p),
    State.Runs ⟨p, m⟩ ∨
    (∃ word route rest e, m.seq = .issue word route :: rest ∧ decodeFor p (routeWord route word m) = .error e ∧
      step ⟨p, m⟩ = .refused (.reservedWord (routeWord route word m))) ∨
    (m.out.BUSY = true ∧
      ∃ word route rest i, m.seq = .issue word route :: rest ∧ (i = .encode ∨ i = .decode) ∧
        decodeFor p (routeWord route word m) = .ok i ∧ step ⟨p, m⟩ = .refused .startWhileBusy)

/-- No step, no operation and no move of the host, reset included, changes the parameters. -/
def Obligations.ParametersNeverChange : Prop :=
  (∀ (s t : State), step s = .next t → t.params = s.params) ∧
  (∀ (i : Instr) (s t : State), exec i s = .next t → t.params = s.params) ∧
  (∀ (move : HostMove) (s t : State), hostMove move s = .next t → t.params = s.params)

/-- Who writes the buffers and the ports: no operation changes a host-owned input; no operation but UNPACK, ENCODE and
DECODE changes a byte of `DOUT`, UNPACK `off` changes none outside `off .. off+u-1`, and a command none outside the
block; no operation but ENCODE and DECODE changes `BUSY`, `DONE`, `STATUS` or the sequencer's position. -/
def Obligations.OnlyUnpackAndCommandsWriteOutputs : Prop :=
  ∀ (i : Instr) (p : Params) (m n : Mach p), exec i ⟨p, m⟩ = .next ⟨p, n⟩ →
    n.inp = m.inp ∧
    (∀ a,
      (match i with
        | .unpack off => a < off.toNat ∨ off.toNat + p.u ≤ a
        | .encode => p.blockBytes ≤ a
        | .decode => p.blockBytes ≤ a
        | _ => True) → n.out.DOUT.read a = m.out.DOUT.read a) ∧
    (i ≠ .encode → i ≠ .decode →
      n.out.BUSY = m.out.BUSY ∧ n.out.DONE = m.out.DONE ∧ n.out.STATUS = m.out.STATUS ∧ n.seq = m.seq)

/-- Which operations write which registers, as 10_state.md section 2 tabulates it: a word operation, PQSEL, PACK and
UNPACK no working register; WHITEN, UNWHITEN, ENCRND, DECRND only `A` and `B`; KFOLD only `L`; SSEED only `S`; SMIX and
SETUPS neither `A`, `B` nor `RND`. The clauses on the buses are not in that table: that the units 3 and 4 and UNPACK
leave them alone, and that the others drive `Z`, `P` and `Q` only, is the model's choice (log 7). -/
def Obligations.OperationsWriteOnlyTheirRegisters : Prop :=
  ∀ (i : Instr) (p : Params) (m n : Mach p), exec i ⟨p, m⟩ = .next ⟨p, n⟩ →
    match i with
    | .encode => True
    | .decode => True
    | .whiten => n.work = { m.work with A := n.work.A, B := n.work.B } ∧ n.bus = m.bus
    | .unwhiten => n.work = { m.work with A := n.work.A, B := n.work.B } ∧ n.bus = m.bus
    | .encrnd _ => n.work = { m.work with A := n.work.A, B := n.work.B } ∧ n.bus = m.bus
    | .decrnd _ => n.work = { m.work with A := n.work.A, B := n.work.B } ∧ n.bus = m.bus
    | .kfold => n.work = { m.work with L := n.work.L } ∧ n.bus = m.bus
    | .sseed => n.work = { m.work with S := n.work.S } ∧ n.bus = m.bus
    | .smix => n.work.A = m.work.A ∧ n.work.B = m.work.B ∧ n.work.RND = m.work.RND ∧ n.bus = m.bus
    | .setups => n.work.A = m.work.A ∧ n.work.B = m.work.B ∧ n.work.RND = m.work.RND ∧ n.bus = m.bus
    | .pqsel => n.work = m.work ∧ n.bus = { m.bus with P := n.bus.P, Q := n.bus.Q }
    | .unpack _ => n.work = m.work ∧ n.bus = m.bus
    | _ => n.work = m.work ∧ n.bus = { m.bus with Z := n.bus.Z }

/-- From `START` until `DONE` the host can neither change an input nor give `START`: while `BUSY` is 1 or a pulse
stands, each such move is refused by name, for every byte that exists; and a busy core refuses the two commands (the
treatment the spec names for a model; log 23, log 28). -/
def Obligations.BusyCoreHoldsItsInputs : Prop :=
  ∀ (p : Params) (m : Mach p), m.out.BUSY = true ∨ m.inp.START = true →
    (∀ off v, off < 255 → hostMove (.keyByte off v) ⟨p, m⟩ = .refused .inputsHeld) ∧
    (∀ off v, off < 16 → hostMove (.blockByte off v) ⟨p, m⟩ = .refused .inputsHeld) ∧
    (∀ klen dlen, hostMove (.lengths klen dlen) ⟨p, m⟩ = .refused .inputsHeld) ∧
    (∀ op, hostMove (.start op) ⟨p, m⟩ = .refused .startWhileBusy) ∧
    (m.out.BUSY = true →
      exec .encode ⟨p, m⟩ = .refused .startWhileBusy ∧ exec .decode ⟨p, m⟩ = .refused .startWhileBusy)

/-- `STATUS` is readable exactly while `DONE` is 1, and the value read is the port's; the output block is readable
exactly while `DONE` is 1 and `STATUS` is OK, and it is the `2u` bytes of `DOUT` from 0 on. That a reading at any other
time gives nothing is the model's choice (log 13). -/
def Obligations.OutputsAreReadableOnlyWhenValid : Prop :=
  ∀ (p : Params) (m : Mach p),
    (m.out.DONE = true → hostStatus m = some m.out.STATUS) ∧
    (m.out.DONE = false → hostStatus m = none) ∧
    (m.out.DONE = true → m.out.STATUS = .ok → ∃ bytes, hostBlock m = some bytes ∧ bytes.length = 2 * p.u ∧
      ∀ k, k < 2 * p.u → bytes[k]? = some (m.out.DOUT.read k)) ∧
    (¬(m.out.DONE = true ∧ m.out.STATUS = .ok) → hostBlock m = none)

/-- What the host's moves do on a core without a command in flight, with the input buffers canonical: a key byte below
255 and a block byte below 16 is written and every other byte reads as before; the lengths are written; `START` puts its
direction into `OP`, sets `BUSY` to 1 and `DONE` to 0 and stands before the lines of that command; nothing else changes.
In every state a byte beyond a buffer faults by name. The moves are the model's form of the host's duties (log 23); that
the pulse is sampled as it is given, and put back, is the model's choice (log 9, log 26). -/
def Obligations.HostMovesWriteTheirInputs : Prop :=
  (∀ (p : Params) (m : Mach p), m.out.BUSY = false → m.inp.START = false →
    m.inp.KEY.wf 255 = true → m.inp.DIN.wf 16 = true →
    (∀ off v, off < 255 → ∃ K : Memory, K.read off = v ∧ (∀ a, a ≠ off → K.read a = m.inp.KEY.read a) ∧
      K.wf 255 = true ∧ hostMove (.keyByte off v) ⟨p, m⟩ = .next ⟨p, { m with inp := { m.inp with KEY := K } }⟩) ∧
    (∀ off v, off < 16 → ∃ D : Memory, D.read off = v ∧ (∀ a, a ≠ off → D.read a = m.inp.DIN.read a) ∧
      D.wf 16 = true ∧ hostMove (.blockByte off v) ⟨p, m⟩ = .next ⟨p, { m with inp := { m.inp with DIN := D } }⟩) ∧
    (∀ klen dlen, hostMove (.lengths klen dlen) ⟨p, m⟩
      = .next ⟨p, { m with inp := { m.inp with KLEN := klen, DLEN := dlen } }⟩) ∧
    (∀ op, hostMove (.start op) ⟨p, m⟩ = .next ⟨p,
      { m with
        inp := { m.inp with OP := op }
        out := { m.out with BUSY := true, DONE := false }
        seq := commandLines p op }⟩)) ∧
  (∀ (s : State) (off : Nat) (v : Byte),
    (255 ≤ off → hostMove (.keyByte off v) s = .fault (.noSuchByte .KEY off)) ∧
    (16 ≤ off → hostMove (.blockByte off v) s = .fault (.noSuchByte .DIN off)))

/-- What the host reads of one byte: of `KEY` and `DIN` every byte below 255 and 16; of `DOUT` every byte of the block
while `DONE` is 1 and `STATUS` is OK, and no byte at any other time, which is the model's choice (log 13); of no buffer
a byte beyond its size. -/
def Obligations.HostReadsOnlyValidBytes : Prop :=
  ∀ (p : Params) (m : Mach p) (off : Nat),
    (off < 255 → hostReadByte .KEY off m = .ok (m.inp.KEY.read off)) ∧
    (255 ≤ off → hostReadByte .KEY off m = .error (.noSuchByte .KEY off)) ∧
    (off < 16 → hostReadByte .DIN off m = .ok (m.inp.DIN.read off)) ∧
    (16 ≤ off → hostReadByte .DIN off m = .error (.noSuchByte .DIN off)) ∧
    (off < 2 * p.u → m.out.DONE = true → m.out.STATUS = .ok →
      hostReadByte .DOUT off m = .ok (m.out.DOUT.read off)) ∧
    (off < 2 * p.u → ¬(m.out.DONE = true ∧ m.out.STATUS = .ok) →
      hostReadByte .DOUT off m = .error (.outputNotValid off)) ∧
    (2 * p.u ≤ off → hostReadByte .DOUT off m = .error (.noSuchByte .DOUT off))

/-- The codes of the `STATUS` port: 00 OK, 01 E_WIDTH, 10 E_BLOCK_SIZE, 11 E_KEY_LENGTH. On a core that is not busy a
command ends with the port at 00 when both lengths are right, at 10 when `DLEN` is wrong, at 11 when only `KLEN` is
wrong, and never at 01; the port is readable exactly while `DONE` is 1. The codes are the spec's own (log 27). That the
port is at 10 when both lengths are wrong is the spec's own choice of order (R255, D6; log 12), and that a reading while
`DONE` is 0 gives nothing is the model's choice (log 13). -/
def Obligations.StatusPortShowsTheCodes : Prop :=
  (statusCode .ok = 0b00#2 ∧ statusCode .eWidth = 0b01#2 ∧ statusCode .eBlockSize = 0b10#2 ∧
    statusCode .eKeyLength = 0b11#2) ∧
  (∀ (p : Params) (m : Mach p) (i : Instr), (i = .encode ∨ i = .decode) → m.out.BUSY = false → ∃ n : Mach p,
    exec i ⟨p, m⟩ = .next ⟨p, n⟩ ∧
    (m.LengthsRight → hostStatusPort n = some 0b00#2) ∧
    (m.inp.DLEN.toNat ≠ 2 * p.u → hostStatusPort n = some 0b10#2) ∧
    (m.inp.DLEN.toNat = 2 * p.u → m.inp.KLEN.toNat ≠ p.b.val → hostStatusPort n = some 0b11#2)) ∧
  (∀ (p : Params) (m : Mach p),
    (m.out.DONE = true → hostStatusPort m = some (statusCode m.out.STATUS)) ∧
    (m.out.DONE = false → hostStatusPort m = none))
end

