-- ==== Sys2Proof/Laws/Memory.lean ====
section
/-! SUPPORT. The laws of a byte buffer: read after write, and that a write keeps the canonical form, in which buffers
that read alike are equal. -/

namespace Sys2Proof.Machine

@[simp] theorem Memory.read_nil (a : Nat) : Memory.read [] a = Memory.unlisted := rfl

/-- Below the first address of a canonical list nothing is listed. -/
theorem Memory.read_below (m : Memory) {lo size a : Nat} (ha : a < lo) (h : m.wfFrom lo size = true) :
    m.read a = Memory.unlisted := by
  induction m generalizing lo with
  | nil => rfl
  | cons cell rest ih =>
    obtain ⟨k, x⟩ := cell
    simp only [Memory.wfFrom, Bool.and_eq_true, decide_eq_true_eq] at h
    rw [Memory.read, if_neg (by omega)]
    exact ih (Nat.lt_succ_of_lt (by omega)) h.2

/-- A byte just written reads back. -/
theorem Memory.read_write_same (m : Memory) (a : Nat) (v : Byte) {lo size : Nat} (h : m.wfFrom lo size = true) :
    (m.write a v).read a = v := by
  induction m generalizing lo with
  | nil =>
    by_cases hv : v = Memory.unlisted <;> simp [Memory.write, Memory.read, hv]
  | cons cell rest ih =>
    obtain ⟨k, x⟩ := cell
    simp only [Memory.wfFrom, Bool.and_eq_true, decide_eq_true_eq] at h
    unfold Memory.write
    split
    · split
      · next hv => rw [Memory.read, if_neg (by omega), hv]; exact Memory.read_below rest (lo := k + 1) (by omega) h.2
      · simp [Memory.read]
    · split
      · next hk =>
        split
        · next hv => rw [hv]; exact Memory.read_below rest (lo := k + 1) (by omega) h.2
        · simp [Memory.read]
      · rw [Memory.read, if_neg (by omega)]
        exact ih h.2

/-- A write leaves every other byte alone. -/
theorem Memory.read_write_other (m : Memory) {a a' : Nat} (v : Byte) (h : a' ≠ a) :
    (m.write a v).read a' = m.read a' := by
  induction m with
  | nil =>
    by_cases hv : v = Memory.unlisted <;> simp [Memory.write, Memory.read, hv]
    omega
  | cons cell rest ih =>
    obtain ⟨k, x⟩ := cell
    unfold Memory.write
    split
    · split
      · rfl
      · rw [Memory.read, if_neg (by omega)]
    · split
      · next hk =>
        have hk' : k ≠ a' := by omega
        split
        · rw [Memory.read, if_neg hk']
        · rw [Memory.read, if_neg (by omega), Memory.read, if_neg hk']
      · simp only [Memory.read, ih]

/-- A write inside the buffer keeps the canonical form. -/
theorem Memory.wfFrom_write (m : Memory) {lo size a : Nat} (v : Byte) (hlo : lo ≤ a) (ha : a < size)
    (h : m.wfFrom lo size = true) : (m.write a v).wfFrom lo size = true := by
  induction m generalizing lo with
  | nil =>
    by_cases hv : v = Memory.unlisted <;> simp [Memory.write, Memory.wfFrom, hv, hlo, ha]
  | cons cell rest ih =>
    obtain ⟨k, x⟩ := cell
    simp only [Memory.wfFrom, Bool.and_eq_true, decide_eq_true_eq] at h
    obtain ⟨⟨⟨h1, h2⟩, h3⟩, h4⟩ := h
    have weaken : ∀ (l : Memory) (i j : Nat), i ≤ j → l.wfFrom j size = true → l.wfFrom i size = true := by
      intro l i j hij hw
      cases l with
      | nil => rfl
      | cons cell rest =>
        simp only [Memory.wfFrom, Bool.and_eq_true, decide_eq_true_eq] at hw ⊢
        exact ⟨⟨⟨by omega, hw.1.1.2⟩, hw.1.2⟩, hw.2⟩
    unfold Memory.write
    split
    · split
      · simp [Memory.wfFrom, h1, h2, h3, h4]
      · next hv =>
        simp only [Memory.wfFrom, Bool.and_eq_true, decide_eq_true_eq]
        exact ⟨⟨⟨hlo, ha⟩, by simpa using hv⟩, ⟨⟨by omega, h2⟩, h3⟩, h4⟩
    · split
      · next hk =>
        split
        · exact weaken rest lo (k + 1) (by omega) h4
        · next hv =>
          simp only [Memory.wfFrom, Bool.and_eq_true, decide_eq_true_eq]
          exact ⟨⟨⟨hlo, ha⟩, by simpa using hv⟩, hk ▸ h4⟩
      · simp only [Memory.wfFrom, Bool.and_eq_true, decide_eq_true_eq]
        exact ⟨⟨⟨h1, h2⟩, h3⟩, ih (by omega) h4⟩

/-- A write inside the buffer keeps the canonical form. -/
theorem Memory.wf_write (m : Memory) {size a : Nat} (v : Byte) (ha : a < size) (h : m.wf size = true) :
    (m.write a v).wf size = true :=
  Memory.wfFrom_write m v (Nat.zero_le a) ha h

/-- A byte just written to a canonical buffer reads back. -/
theorem Memory.read_write (m : Memory) {size : Nat} (a a' : Nat) (v : Byte) (h : m.wf size = true) :
    (m.write a v).read a' = if a' = a then v else m.read a' := by
  split
  · next e => rw [e]; exact Memory.read_write_same m a v h
  · next e => exact Memory.read_write_other m v e

/-- Beyond the buffer nothing is listed. -/
theorem Memory.read_beyond (m : Memory) {lo size a : Nat} (ha : size ≤ a) (h : m.wfFrom lo size = true) :
    m.read a = Memory.unlisted := by
  induction m generalizing lo with
  | nil => rfl
  | cons cell rest ih =>
    obtain ⟨k, x⟩ := cell
    simp only [Memory.wfFrom, Bool.and_eq_true, decide_eq_true_eq] at h
    rw [Memory.read, if_neg (by omega)]
    exact ih h.2

/-- Canonical buffers that read alike are equal data. -/
theorem Memory.ext_of_wfFrom (m m' : Memory) {lo size : Nat} (h : m.wfFrom lo size = true)
    (h' : m'.wfFrom lo size = true) (hr : ∀ a, m.read a = m'.read a) : m = m' := by
  induction m generalizing lo m' with
  | nil =>
    cases m' with
    | nil => rfl
    | cons cell rest =>
      obtain ⟨k, x⟩ := cell
      simp only [Memory.wfFrom, Bool.and_eq_true, decide_eq_true_eq] at h'
      have := hr k
      simp [Memory.read] at this
      simp [this] at h'
  | cons cell rest ih =>
    obtain ⟨k, x⟩ := cell
    have h0 := h
    simp only [Memory.wfFrom, Bool.and_eq_true, decide_eq_true_eq] at h
    cases m' with
    | nil =>
      have := hr k
      simp [Memory.read] at this
      simp [this] at h
    | cons cell' rest' =>
      obtain ⟨k', x'⟩ := cell'
      have h0' := h'
      simp only [Memory.wfFrom, Bool.and_eq_true, decide_eq_true_eq] at h'
      have hx : x ≠ Memory.unlisted := by simpa using h.1.2
      have hx' : x' ≠ Memory.unlisted := by simpa using h'.1.2
      have hk : k = k' := by
        rcases Nat.lt_trichotomy k k' with hlt | heq | hgt
        · have e := hr k
          rw [Memory.read, if_pos rfl, Memory.read, if_neg (by omega),
            Memory.read_below rest' (Nat.lt_succ_of_lt hlt) h'.2] at e
          exact absurd e hx
        · exact heq
        · have e := hr k'
          rw [Memory.read, if_neg (by omega), Memory.read_below rest (Nat.lt_succ_of_lt hgt) h.2, Memory.read,
            if_pos rfl] at e
          exact absurd e.symm hx'
      subst hk
      have hxx : x = x' := by
        have e := hr k
        simpa [Memory.read] using e
      subst hxx
      have : rest = rest' := by
        refine ih rest' h.2 h'.2 fun a => ?_
        by_cases ha : k = a
        · subst ha
          rw [Memory.read_below rest (Nat.lt_succ_self _) h.2, Memory.read_below rest' (Nat.lt_succ_self _) h'.2]
        · have e := hr a
          rwa [Memory.read, if_neg ha, Memory.read, if_neg ha] at e
      rw [this]

/-- Canonical buffers that read alike are equal data. -/
theorem Memory.ext_of_wf (m m' : Memory) {size : Nat} (h : m.wf size = true) (h' : m'.wf size = true)
    (hr : ∀ a, m.read a = m'.read a) : m = m' :=
  Memory.ext_of_wfFrom m m' h h' hr

end Sys2Proof.Machine
end

