-- ==== Sys2Proof/Laws/Bytes.lean ====
section
/-! SUPPORT. The laws of the little-endian accesses (20_memory.md R72, 45_packing.md R234): what a stored word leaves in
each byte, which word a run of bytes loads as, and that the two undo each other. -/

namespace Sys2Proof.Machine

/-- A load is the sum of its bytes, the lowest offset least significant (R13, R231). -/
theorem loadNat_eq_sum (mem : Memory) (off n : Nat) :
    loadNat mem off n = ∑ k ∈ Finset.range n, (mem.read (off + k)).toNat * 2 ^ (8 * k) := by
  induction n with
  | zero => rfl
  | succ n ih => rw [loadNat, ih, Finset.sum_range_succ]

/-- A load of `n` bytes is below `2^(8n)`. -/
theorem loadNat_lt (mem : Memory) (off n : Nat) : loadNat mem off n < 2 ^ (8 * n) := by
  induction n with
  | zero => simp [loadNat]
  | succ n ih =>
    have hb := (mem.read (off + n)).isLt
    have h2 : 2 ^ (8 * (n + 1)) = 2 ^ (8 * n) * 256 := by rw [Nat.mul_succ, Nat.pow_add]
    rw [loadNat, h2]
    have : (mem.read (off + n)).toNat * 2 ^ (8 * n) ≤ 255 * 2 ^ (8 * n) := Nat.mul_le_mul_right _ (by omega)
    omega

/-- A load depends on its own bytes only. -/
theorem loadNat_congr {mem mem' : Memory} {off off' n : Nat}
    (h : ∀ k, k < n → mem.read (off + k) = mem'.read (off' + k)) : loadNat mem off n = loadNat mem' off' n := by
  induction n with
  | zero => rfl
  | succ n ih => rw [loadNat, loadNat, ih fun k hk => h k (Nat.lt_succ_of_lt hk), h n (Nat.lt_succ_self n)]

/-- A loaded word depends on its own bytes only. -/
theorem loadWord_congr {w : Nat} {mem mem' : Memory} {off off' n : Nat}
    (h : ∀ k, k < n → mem.read (off + k) = mem'.read (off' + k)) : loadWord w mem off n = loadWord w mem' off' n := by
  rw [loadWord, loadWord, loadNat_congr h]

/-- Byte `k` of a load is the byte at `off + k`. -/
theorem byte_of_loadNat (mem : Memory) (off n k : Nat) (hk : k < n) :
    loadNat mem off n / 2 ^ (8 * k) % 256 = (mem.read (off + k)).toNat := by
  induction n with
  | zero => omega
  | succ n ih =>
    have hb := (mem.read (off + n)).isLt
    rw [loadNat]
    rcases Nat.lt_succ_iff_lt_or_eq.mp hk with hlt | heq
    · have hsplit : (mem.read (off + n)).toNat * 2 ^ (8 * n)
          = 2 ^ (8 * k) * ((mem.read (off + n)).toNat * 2 ^ (8 * (n - k - 1)) * 256) := by
        rw [show 8 * n = 8 * k + (8 * (n - k - 1) + 8) by omega, Nat.pow_add, Nat.pow_add]
        ring
      rw [hsplit, Nat.add_mul_div_left _ _ (Nat.two_pow_pos _), Nat.add_mul_mod_self_right, ih hlt]
    · subst heq
      rw [Nat.add_mul_div_right _ _ (Nat.two_pow_pos _), Nat.div_eq_of_lt (loadNat_lt mem off k), Nat.zero_add,
        Nat.mod_eq_of_lt (by omega)]

/-- Byte `k` of a loaded word is the byte at `off + k` (R234). -/
theorem byteOf_loadWord {w : Nat} (mem : Memory) (off n k : Nat) (hk : k < n) (hn : 8 * n ≤ w) :
    byteOf (loadWord w mem off n) k = mem.read (off + k) := by
  have hlt : loadNat mem off n < 2 ^ w := Nat.lt_of_lt_of_le (loadNat_lt mem off n) (Nat.pow_le_pow_right (by omega) hn)
  apply BitVec.eq_of_toNat_eq
  rw [byteOf, loadWord, BitVec.toNat_ofNat, BitVec.toNat_ofNat, Nat.mod_eq_of_lt hlt]
  exact byte_of_loadNat mem off n k hk

/-- A buffer whose bytes are those of `x` loads as the low bytes of `x`. -/
theorem loadNat_of_bytes {w : Nat} (x : BitVec w) (mem : Memory) (off n : Nat)
    (h : ∀ k, k < n → mem.read (off + k) = byteOf x k) : loadNat mem off n = x.toNat % 2 ^ (8 * n) := by
  induction n with
  | zero => simp [loadNat, Nat.mod_one]
  | succ n ih =>
    rw [loadNat, ih fun k hk => h k (Nat.lt_succ_of_lt hk), h n (Nat.lt_succ_self n), byteOf, BitVec.toNat_ofNat,
      Nat.mul_succ, Nat.pow_add, Nat.mod_mul]
    ring

/-- A buffer whose `n` bytes are those of a word of `n` bytes loads as the word (R234). -/
theorem loadWord_of_bytes {w : Nat} (x : BitVec w) (mem : Memory) (off n : Nat) (hn : w = 8 * n)
    (h : ∀ k, k < n → mem.read (off + k) = byteOf x k) : loadWord w mem off n = x := by
  apply BitVec.eq_of_toNat_eq
  rw [loadWord, loadNat_of_bytes x mem off n h, BitVec.toNat_ofNat, ← hn, Nat.mod_mod, Nat.mod_eq_of_lt x.isLt]

/-- A store inside the buffer keeps the canonical form. -/
theorem wf_storeWord {w : Nat} (mem : Memory) {size off n : Nat} (x : BitVec w) (hn : off + n ≤ size)
    (h : mem.wf size = true) : (storeWord mem off x n).wf size = true := by
  induction n with
  | zero => exact h
  | succ n ih => exact Memory.wf_write _ _ (by omega) (ih (by omega))

/-- What every byte reads as after a store: the stored bytes are those of the word, all others are unchanged (R232). -/
theorem read_storeWord {w : Nat} (mem : Memory) {size off n : Nat} (x : BitVec w) (hn : off + n ≤ size)
    (h : mem.wf size = true) (a : Nat) :
    (storeWord mem off x n).read a = if off ≤ a ∧ a < off + n then byteOf x (a - off) else mem.read a := by
  induction n with
  | zero => rw [if_neg (by omega)]; rfl
  | succ n ih =>
    rw [storeWord, Memory.read_write _ _ _ _ (wf_storeWord mem x (by omega) h), ih (by omega)]
    by_cases ha : a = off + n
    · rw [if_pos ha, if_pos (by omega), ha, Nat.add_sub_cancel_left]
    · rw [if_neg ha]
      by_cases hin : off ≤ a ∧ a < off + n
      · rw [if_pos hin, if_pos (by omega)]
      · rw [if_neg hin, if_neg (by omega)]

/-- Outside the stored bytes nothing changes, whatever the buffer. -/
theorem read_storeWord_outside {w : Nat} (mem : Memory) (off n : Nat) (x : BitVec w) (a : Nat)
    (ha : a < off ∨ off + n ≤ a) : (storeWord mem off x n).read a = mem.read a := by
  induction n with
  | zero => rfl
  | succ n ih => rw [storeWord, Memory.read_write_other _ _ (by omega), ih (by omega)]

/-- A word stored and loaded back (R234). -/
theorem loadWord_storeWord {w : Nat} (mem : Memory) {size off n : Nat} (x : BitVec w) (hw : w = 8 * n)
    (hn : off + n ≤ size) (h : mem.wf size = true) : loadWord w (storeWord mem off x n) off n = x :=
  loadWord_of_bytes x _ off n hw fun k hk => by
    rw [read_storeWord mem x hn h, if_pos (by omega), Nat.add_sub_cancel_left]

/-- Bytes loaded and stored back at the same place leave the buffer as it was (R234). -/
theorem storeWord_loadWord {w : Nat} (mem : Memory) {size off n : Nat} (hw : w = 8 * n) (hn : off + n ≤ size)
    (h : mem.wf size = true) : storeWord mem off (loadWord w mem off n) n = mem := by
  refine Memory.ext_of_wf _ _ (wf_storeWord mem _ hn h) h fun a => ?_
  rw [read_storeWord mem _ hn h]
  split
  · next ha => rw [byteOf_loadWord mem off n (a - off) (by omega) (by omega), Nat.add_sub_cancel' ha.1]
  · rfl

end Sys2Proof.Machine
end

