-- ==== Sys2Proof/Laws/WordArith.lean ====
section
/-! SUPPORT. The laws of the word primitives: each is the library's operation on bit vectors, where an addition moves
its bits, and the inverse laws of 40_word_arithmetic.md. -/

namespace Sys2Proof.Machine

variable {w : Nat}

theorem addW_eq_add (a b : BitVec w) : addW a b = a + b := by
  apply BitVec.eq_of_toNat_eq
  simp [addW]

theorem subW_eq_sub (a b : BitVec w) : subW a b = a - b := by
  apply BitVec.eq_of_toNat_eq
  simp [subW, BitVec.toNat_sub, Nat.add_comm]

theorem xorW_eq_xor (a b : BitVec w) : xorW a b = a ^^^ b := rfl

theorem shlW_eq_shiftLeft (x : BitVec w) (n : Nat) : shlW x n = x <<< n := by
  apply BitVec.eq_of_toNat_eq
  simp [shlW, Nat.shiftLeft_eq]

theorem shrW_eq_ushiftRight (x : BitVec w) (n : Nat) : shrW x n = x >>> n := by
  apply BitVec.eq_of_toNat_eq
  have h : x.toNat / 2 ^ n < 2 ^ w := Nat.lt_of_le_of_lt (Nat.div_le_self _ _) x.isLt
  simp [shrW, Nat.shiftRight_eq_div_pow, Nat.mod_eq_of_lt h]

/-- "The two parts have no bit in common, so `+` is also bitwise or" (R11). -/
theorem shl_add_shr_eq_or (x : BitVec w) (s : Nat) (hs : s ≤ w) :
    addW (shlW x s) (shrW x (w - s)) = x <<< s ||| x >>> (w - s) := by
  rw [addW_eq_add, shlW_eq_shiftLeft, shrW_eq_ushiftRight, BitVec.add_eq_or_of_and_eq_zero]
  apply BitVec.eq_of_getLsbD_eq
  intro i hi
  simp only [BitVec.getLsbD_and, BitVec.getLsbD_shiftLeft, BitVec.getLsbD_ushiftRight, BitVec.getLsbD_zero]
  by_cases h : i < s
  · simp [h]
  · rw [BitVec.getLsbD_of_ge x (w - s + i) (by omega)]
    simp

/-- ROTL is the library's rotation (R134). -/
theorem rotlW_eq_rotateLeft (x : BitVec w) (n : Nat) : rotlW x n = x.rotateLeft n := by
  rcases Nat.eq_zero_or_pos w with h0 | hw
  · subst h0
    exact BitVec.eq_of_getLsbD_eq fun i hi => absurd hi (Nat.not_lt_zero i)
  unfold rotlW BitVec.rotateLeft BitVec.rotateLeftAux
  split
  · next h => exact BitVec.eq_of_getLsbD_eq fun i hi => by simp [h, hi]
  · exact shl_add_shr_eq_or x (n % w) (Nat.le_of_lt (Nat.mod_lt n hw))

/-- ROTR is the library's rotation (R135). -/
theorem rotrW_eq_rotateRight (x : BitVec w) (n : Nat) : rotrW x n = x.rotateRight n := by
  rcases Nat.eq_zero_or_pos w with h0 | hw
  · subst h0
    exact BitVec.eq_of_getLsbD_eq fun i hi => absurd hi (Nat.not_lt_zero i)
  unfold rotrW BitVec.rotateRight BitVec.rotateRightAux
  split
  · next h => exact BitVec.eq_of_getLsbD_eq fun i hi => by simp [h, hi]
  · have hr := shl_add_shr_eq_or x (w - n % w) (Nat.sub_le _ _)
    rw [Nat.sub_sub_self (Nat.le_of_lt (Nat.mod_lt n hw))] at hr
    rw [BitVec.or_comm, ← hr, addW_eq_add, addW_eq_add, BitVec.add_comm]

/-- Where ROTL moves a bit: bit `k` to bit `(k + s) mod w` (R134). -/
theorem getLsbD_rotlW (x : BitVec w) (n k : Nat) (hk : k < w) :
    (rotlW x n).getLsbD ((k + n) % w) = x.getLsbD k := by
  have hw : 0 < w := by omega
  have hs := Nat.mod_lt n hw
  rw [rotlW_eq_rotateLeft, BitVec.getLsbD_rotateLeft, Nat.add_mod, Nat.mod_eq_of_lt hk]
  by_cases h : k + n % w < w
  · rw [Nat.mod_eq_of_lt h]
    simp [show ¬ (k + n % w < n % w) by omega, h]
  · rw [Nat.mod_eq_sub_mod (by omega), Nat.mod_eq_of_lt (by omega)]
    simp only [show k + n % w - w < n % w by omega, decide_true, cond_true]
    congr 1
    omega

/-- Where ROTR moves a bit: bit `(k + s) mod w` to bit `k` (R135). -/
theorem getLsbD_rotrW (x : BitVec w) (n k : Nat) (hk : k < w) :
    (rotrW x n).getLsbD k = x.getLsbD ((k + n) % w) := by
  have hw : 0 < w := by omega
  have hs := Nat.mod_lt n hw
  rw [rotrW_eq_rotateRight, BitVec.getLsbD_rotateRight, Nat.add_mod k, Nat.mod_eq_of_lt hk]
  by_cases h : k + n % w < w
  · rw [Nat.mod_eq_of_lt h]
    simp only [show k < w - n % w by omega, decide_true, cond_true]
    congr 1
    omega
  · rw [Nat.mod_eq_sub_mod (a := k + n % w) (by omega), Nat.mod_eq_of_lt (a := k + n % w - w) (by omega)]
    simp only [show ¬ (k < w - n % w) by omega, decide_false, cond_false, hk, decide_true, Bool.true_and]
    congr 1
    omega

/-- Two words are equal when their bits at all residues are. -/
theorem eq_of_residues (x y : BitVec w) (n : Nat)
    (h : ∀ k, k < w → x.getLsbD ((k + n) % w) = y.getLsbD ((k + n) % w)) : x = y := by
  refine BitVec.eq_of_getLsbD_eq fun i hi => ?_
  have hw : 0 < w := by omega
  have hs := Nat.mod_lt n hw
  have e := h ((i + (w - n % w)) % w) (Nat.mod_lt _ hw)
  have : ((i + (w - n % w)) % w + n) % w = i := by
    rw [Nat.mod_add_mod, Nat.add_assoc, ← Nat.add_mod_mod, show w - n % w + n = w * (1 + n / w) by
      have := Nat.div_add_mod n w
      rw [Nat.mul_add]
      omega]
    simp [Nat.mod_eq_of_lt hi]
  rwa [this] at e

/-- `rotr_w(rotl_w(X, Y), Y) = X` (R136). -/
@[simp] theorem rotrW_rotlW (x : BitVec w) (n : Nat) : rotrW (rotlW x n) n = x :=
  BitVec.eq_of_getLsbD_eq fun i hi => by rw [getLsbD_rotrW _ _ _ hi, getLsbD_rotlW _ _ _ hi]

/-- `rotl_w(rotr_w(X, Y), Y) = X` (R136). -/
@[simp] theorem rotlW_rotrW (x : BitVec w) (n : Nat) : rotlW (rotrW x n) n = x :=
  eq_of_residues _ _ n fun k hk => by rw [getLsbD_rotlW _ _ _ hk, getLsbD_rotrW _ _ _ hk]

/-- `sub_w(add_w(X, Y), Y) = X` (R136). -/
@[simp] theorem subW_addW (x y : BitVec w) : subW (addW x y) y = x := by
  rw [subW_eq_sub, addW_eq_add, BitVec.add_sub_cancel]

/-- `add_w(sub_w(X, Y), Y) = X` (R136). -/
@[simp] theorem addW_subW (x y : BitVec w) : addW (subW x y) y = x := by
  rw [subW_eq_sub, addW_eq_add, BitVec.sub_add_cancel]

/-- `xor_w(xor_w(X, Y), Y) = X` (R136). -/
@[simp] theorem xorW_xorW (x y : BitVec w) : xorW (xorW x y) y = x := by
  simp [xorW]

/-- `add_w` is commutative (R136). -/
theorem addW_comm (x y : BitVec w) : addW x y = addW y x := by
  rw [addW_eq_add, addW_eq_add, BitVec.add_comm]

/-- `add_w` is associative (R136). -/
theorem addW_assoc (x y z : BitVec w) : addW (addW x y) z = addW x (addW y z) := by
  simp only [addW_eq_add, BitVec.add_assoc]

/-- `xor_w` is commutative (R136). -/
theorem xorW_comm (x y : BitVec w) : xorW x y = xorW y x := BitVec.xor_comm x y

/-- `xor_w` is associative (R136). -/
theorem xorW_assoc (x y z : BitVec w) : xorW (xorW x y) z = xorW x (xorW y z) := BitVec.xor_assoc x y z

/-- Only the residue of the amount matters (R137). -/
theorem rotlW_mod (x : BitVec w) (n : Nat) : rotlW x (n % w) = rotlW x n := by
  simp [rotlW]

end Sys2Proof.Machine
end

