-- ==== Sys2Proof/Laws/Round.lean ====
section
/-! SUPPORT. The laws of the round unit (44_decrypt.md R218): each decryption step undoes its encryption step in both
orders, and the sequences of rounds are the reference transforms. -/

namespace Sys2Proof.Machine

variable {p : Params}

/-- DECRND `i` undoes ENCRND `i` (R218). -/
@[simp] theorem decrndWork_encrndWork (k : Work p) (i : Nat) (h : i ≤ p.r.val) :
    decrndWork (encrndWork k i h) i h = k := by
  simp [decrndWork, encrndWork, Work.setAB, roundWordA, roundWordB]

/-- ENCRND `i` undoes DECRND `i` (R217). -/
@[simp] theorem encrndWork_decrndWork (k : Work p) (i : Nat) (h : i ≤ p.r.val) :
    encrndWork (decrndWork k i h) i h = k := by
  simp [decrndWork, encrndWork, Work.setAB, roundWordA, roundWordB]

/-- UNWHITEN undoes WHITEN (R214). -/
@[simp] theorem unwhitenWork_whitenWork (k : Work p) : unwhitenWork (whitenWork k) = k := by
  simp [unwhitenWork, whitenWork, Work.setAB, roundWordA, roundWordB]

/-- WHITEN undoes UNWHITEN (R217). -/
@[simp] theorem whitenWork_unwhitenWork (k : Work p) : whitenWork (unwhitenWork k) = k := by
  simp [unwhitenWork, whitenWork, Work.setAB, roundWordA, roundWordB]

theorem tableWord_eq (S : Vector (Word p.width) p.t) (i : Nat) (h : i < p.t) : Reference.tableWord S i = S[i] :=
  dif_pos h

/-- WHITEN and the rounds `1 .. n` are the reference encryption, and touch no other location but `RND`. -/
theorem encRounds_whitenWork (k : Work p) (n : Nat) (h : n ≤ p.r.val) :
    ∃ i, encRounds (whitenWork k) n h
      = (k.setAB (Reference.encrypt (Reference.tableWord k.S) n (k.A, k.B)).1
          (Reference.encrypt (Reference.tableWord k.S) n (k.A, k.B)).2).setRND i := by
  induction n with
  | zero =>
    refine ⟨k.RND, ?_⟩
    have h1 := p.roundWord_lt (Nat.zero_le p.r.val)
    simp [encRounds, whitenWork, roundWordA, roundWordB, Reference.encrypt, addW_eq_add,
      tableWord_eq k.S 0 (by omega), tableWord_eq k.S 1 (by omega), Work.setAB, Work.setRND]
  | succ n ih =>
    obtain ⟨i, hi⟩ := ih (Nat.le_of_succ_le h)
    refine ⟨BitVec.ofNat 8 (n + 1), ?_⟩
    have h1 := p.roundWord_lt h
    rw [encRounds, hi]
    simp [encrndWork, roundWordA, roundWordB, Reference.encrypt, addW_eq_add, xorW_eq_xor, rotlW_eq_rotateLeft,
      tableWord_eq k.S (2 * (n + 1)) (by omega), tableWord_eq k.S (2 * (n + 1) + 1) h1, Work.setAB, Work.setRND]

/-- The rounds `n .. 1` and UNWHITEN are the reference decryption, and touch no other location but `RND`. -/
theorem unwhitenWork_decRounds (k : Work p) (n : Nat) (h : n ≤ p.r.val) :
    ∃ i, unwhitenWork (decRounds n h k)
      = (k.setAB (Reference.decrypt (Reference.tableWord k.S) n (k.A, k.B)).1
          (Reference.decrypt (Reference.tableWord k.S) n (k.A, k.B)).2).setRND i := by
  induction n generalizing k with
  | zero =>
    refine ⟨k.RND, ?_⟩
    have h1 := p.roundWord_lt (Nat.zero_le p.r.val)
    simp [decRounds, unwhitenWork, roundWordA, roundWordB, Reference.decrypt, subW_eq_sub,
      tableWord_eq k.S 0 (by omega), tableWord_eq k.S 1 (by omega), Work.setAB, Work.setRND]
  | succ n ih =>
    obtain ⟨i, hi⟩ := ih (decrndWork (k.setRND (BitVec.ofNat 8 (n + 1))) (n + 1) h) (Nat.le_of_succ_le h)
    refine ⟨i, ?_⟩
    have h1 := p.roundWord_lt h
    rw [decRounds, hi]
    simp [decrndWork, roundWordA, roundWordB, Reference.decrypt, subW_eq_sub, xorW_eq_xor, rotrW_eq_rotateRight,
      tableWord_eq k.S (2 * (n + 1)) (by omega), tableWord_eq k.S (2 * (n + 1) + 1) h1, Work.setAB, Work.setRND]

/-- The reference decryption undoes the reference encryption. -/
theorem decrypt_encrypt {w : Nat} (S : Nat → BitVec w) (n : Nat) (ab : BitVec w × BitVec w) :
    Reference.decrypt S n (Reference.encrypt S n ab) = ab := by
  induction n with
  | zero => simp [Reference.decrypt, Reference.encrypt]
  | succ n ih =>
    rw [Reference.encrypt, Reference.decrypt]
    simp only [BitVec.add_sub_cancel, ← rotlW_eq_rotateLeft, ← rotrW_eq_rotateRight, rotrW_rotlW, BitVec.xor_assoc,
      BitVec.xor_self, BitVec.xor_zero]
    exact ih

/-- The reference encryption undoes the reference decryption. -/
theorem encrypt_decrypt {w : Nat} (S : Nat → BitVec w) (n : Nat) (ab : BitVec w × BitVec w) :
    Reference.encrypt S n (Reference.decrypt S n ab) = ab := by
  induction n generalizing ab with
  | zero => simp [Reference.decrypt, Reference.encrypt]
  | succ n ih =>
    rw [Reference.decrypt, Reference.encrypt]
    simp only [ih, ← rotlW_eq_rotateLeft, ← rotrW_eq_rotateRight, BitVec.xor_assoc, BitVec.xor_self, BitVec.xor_zero,
      rotlW_rotrW, BitVec.sub_add_cancel]

/-- Different block words encrypt differently (R197). -/
theorem encrypt_injective {w : Nat} (S : Nat → BitVec w) (n : Nat) : Function.Injective (Reference.encrypt S n) :=
  Function.LeftInverse.injective (decrypt_encrypt S n)

end Sys2Proof.Machine
end

