-- ==== Sys2Proof/Laws/Schedule.lean ====
section
/-! SUPPORT. The laws of the key scheduler (42_key_scheduler.md): the closed forms of KFOLD and SSEED, the counters of the
mixing loop, what SETUPS leaves alone and what its result depends on. -/

namespace Sys2Proof.Machine

variable {p : Params}

/-- A load peeled at its lowest byte. -/
theorem loadNat_cons (mem : Memory) (off n : Nat) :
    loadNat mem off (n + 1) = (mem.read off).toNat + 256 * loadNat mem (off + 1) n := by
  induction n with
  | zero => simp [loadNat]
  | succ n ih =>
    rw [loadNat, ih, loadNat, show off + 1 + n = off + (n + 1) by omega,
      show 2 ^ (8 * (n + 1)) = 256 * 2 ^ (8 * n) by rw [Nat.mul_succ, Nat.pow_add, Nat.mul_comm]]
    ring

/-- One byte step puts the byte below the bytes already folded, as long as they fit. -/
theorem toNat_foldByte {w : Nat} (x : BitVec w) (v : Byte) (h : x.toNat * 256 + 256 ≤ 2 ^ w) :
    (foldByte x v).toNat = v.toNat + 256 * x.toNat := by
  have hv := v.isLt
  simp only [foldByte, addW, shlW, zextByte, BitVec.toNat_ofNat]
  rw [Nat.mod_eq_of_lt (a := x.toNat * 2 ^ 8) (by omega), Nat.mod_eq_of_lt (a := v.toNat) (by omega),
    Nat.mod_eq_of_lt (by omega)]
  omega

/-- How many bytes of key word `m` have an index of at least `n`. -/
def keyBytesFrom (p : Params) (n m : Nat) : Nat := min ((m + 1) * p.u) p.b.val - max n (m * p.u)

/-- The byte steps of KFOLD, when the words already hold the bytes of index `n` and above. -/
theorem toNat_foldKey (key : Memory) (n : Nat) (h : n ≤ p.b.val) (L : Vector (Word p.width) p.c)
    (hL : ∀ m (hm : m < p.c), L[m].toNat = loadNat key (max n (m * p.u)) (keyBytesFrom p n m)) (m : Nat)
    (hm : m < p.c) : (foldKey p key n h L)[m].toNat = loadNat key (m * p.u) (keyBytesFrom p 0 m) := by
  induction n generalizing L with
  | zero => simpa [foldKey, keyBytesFrom] using hL m hm
  | succ i ih =>
    refine ih _ _ fun m' hm' => ?_
    have hu := p.u_pos
    have hi1 : i / p.u * p.u ≤ i := Nat.div_mul_le_self i p.u
    have hi2 : i < (i / p.u + 1) * p.u := by
      rw [Nat.mul_comm]
      exact Nat.lt_mul_div_succ i hu
    by_cases hmi : m' = i / p.u
    · subst hmi
      have hlen : keyBytesFrom p i (i / p.u) = keyBytesFrom p (i + 1) (i / p.u) + 1 := by
        unfold keyBytesFrom
        omega
      have hfit : keyBytesFrom p (i + 1) (i / p.u) + 1 ≤ p.u := by
        rw [← hlen, keyBytesFrom]
        rw [Nat.add_mul] at hi2 ⊢
        omega
      have hold := hL (i / p.u) hm'
      rw [show max (i + 1) (i / p.u * p.u) = i + 1 by omega] at hold
      have hbound := loadNat_lt key (i + 1) (keyBytesFrom p (i + 1) (i / p.u))
      have hpow : 2 ^ (8 * keyBytesFrom p (i + 1) (i / p.u)) * 256 ≤ 2 ^ p.width.bits := by
        rw [show 2 ^ (8 * keyBytesFrom p (i + 1) (i / p.u)) * 256
            = 2 ^ (8 * (keyBytesFrom p (i + 1) (i / p.u) + 1)) by rw [Nat.mul_add 8, Nat.pow_add], p.bits_eq]
        exact Nat.pow_le_pow_right Nat.two_pos (Nat.mul_le_mul_left 8 hfit)
      have hroom := Nat.le_trans (Nat.mul_le_mul_right 256 (Nat.succ_le_of_lt hbound)) hpow
      rw [Nat.succ_mul] at hroom
      rw [Vector.getElem_set_self, toNat_foldByte _ _ (hold ▸ hroom), hold, hlen,
        show max i (i / p.u * p.u) = i by omega, loadNat_cons]
    · rw [Vector.getElem_set_ne _ _ (Ne.symm hmi), hL m' hm']
      rcases Nat.lt_or_ge i (m' * p.u) with hlt | hge
      · rw [show max (i + 1) (m' * p.u) = max i (m' * p.u) by omega]
        unfold keyBytesFrom
        rw [show max (i + 1) (m' * p.u) = max i (m' * p.u) by omega]
      · have : (m' + 1) * p.u ≤ i := by
          have h1 : m' < i / p.u := by
            have := (Nat.le_div_iff_mul_le hu).mpr hge
            omega
          exact (Nat.le_div_iff_mul_le hu).mp h1
        have e1 : keyBytesFrom p (i + 1) m' = 0 := by unfold keyBytesFrom; omega
        have e2 : keyBytesFrom p i m' = 0 := by unfold keyBytesFrom; omega
        rw [e1, e2]
        rfl

/-- A load cut off at index `b` is the sum over the bytes that exist. -/
theorem loadNat_cut (mem : Memory) (off u b : Nat) :
    loadNat mem off (min (off + u) b - off)
      = ∑ k ∈ Finset.range u, if off + k < b then (mem.read (off + k)).toNat * 2 ^ (8 * k) else 0 := by
  rw [loadNat_eq_sum, ← Finset.sum_filter]
  refine Finset.sum_congr (Finset.ext fun k => ?_) fun _ _ => rfl
  simp only [Finset.mem_range, Finset.mem_filter]
  omega

/-- The closed form of KFOLD (R162). -/
theorem toNat_kfold (key : Memory) (k : Work p) (m : Nat) (hm : m < p.c) :
    (kfoldWork key k).L[m].toNat
      = ∑ j ∈ Finset.range p.u,
          if m * p.u + j < p.b.val then (key.read (m * p.u + j)).toNat * 2 ^ (8 * j) else 0 := by
  have h := toNat_foldKey (p := p) key p.b.val (Nat.le_refl _) (Vector.replicate p.c 0) (fun m' hm' => by
    have : keyBytesFrom p p.b.val m' = 0 := by unfold keyBytesFrom; omega
    rw [this]
    simp [loadNat]) m hm
  rw [← loadNat_cut, kfoldWork, Work.setL, h, keyBytesFrom, Nat.add_mul, Nat.one_mul, Nat.zero_max]

/-- The byte steps of KFOLD read no key byte beyond the first `b`. -/
theorem foldKey_congr {key key' : Memory} (hk : ∀ i, i < p.b.val → key.read i = key'.read i) (n : Nat)
    (h : n ≤ p.b.val) (L : Vector (Word p.width) p.c) : foldKey p key n h L = foldKey p key' n h L := by
  induction n generalizing L with
  | zero => rfl
  | succ i ih => rw [foldKey, foldKey, hk i h, ih]

/-- The seed of table entry `i`: `(P + i * Q) mod 2^w` (R164). -/
def seedWord (p : Params) (i : Nat) : Word p.width := magicP p.width + BitVec.ofNat p.width.bits i * magicQ p.width

/-- The seeding loop up to `n` has written the entries up to `n`. -/
theorem getElem_seedTable (S : Vector (Word p.width) p.t) (n : Nat) (hn : n < p.t) (i : Nat) (hi : i ≤ n) :
    (seedTable p S n hn)[i]'(Nat.lt_of_le_of_lt hi hn) = seedWord p i := by
  induction n generalizing i with
  | zero =>
    obtain rfl := Nat.le_zero.mp hi
    simp [seedTable, seedWord]
  | succ n ih =>
    rw [seedTable]
    by_cases h : i = n + 1
    · subst h
      have step : seedWord p n + magicQ p.width = seedWord p (n + 1) := by
        apply BitVec.eq_of_toNat_eq
        simp only [seedWord, BitVec.toNat_add, BitVec.toNat_mul, BitVec.toNat_ofNat, Nat.add_mod_mod, Nat.mod_add_mod,
          Nat.mod_mul_mod]
        congr 1
        ring
      rw [Vector.getElem_set_self, ih (Nat.lt_of_succ_lt hn) n (Nat.le_refl n), addW_eq_add, step]
    · rw [Vector.getElem_set_ne _ _ (Ne.symm h)]
      exact ih (Nat.lt_of_succ_lt hn) i (by omega)

/-- The closed form of SSEED (R164). -/
theorem getElem_sseed (k : Work p) (i : Nat) (hi : i < p.t) : (sseedWork k).S[i] = seedWord p i :=
  getElem_seedTable k.S (p.t - 1) (Nat.sub_one_lt (Nat.pos_iff_ne_zero.mp p.t_pos)) i (by omega)

/-- Iterations of the mixing loop, the last one outermost. -/
theorem mixTimes_succ (n : Nat) (k : Work p) : mixTimes (n + 1) k = smixWork (mixTimes n k) := by
  induction n generalizing k with
  | zero => rfl
  | succ n ih => rw [mixTimes, ih, mixTimes]

/-- The mixing loop counts its iterations (R166, R167). -/
theorem mixTimes_counters (n : Nat) (k : Work p) :
    (mixTimes n k).N = k.N + BitVec.ofNat 11 n ∧
    (mixTimes n k).I.val = (k.I.val + n) % p.t ∧
    (mixTimes n k).J.val = (k.J.val + n) % p.c := by
  induction n with
  | zero =>
    refine ⟨by simp [mixTimes], ?_, ?_⟩
    · simp [mixTimes, Nat.mod_eq_of_lt k.I.isLt]
    · simp [mixTimes, Nat.mod_eq_of_lt k.J.isLt]
  | succ n ih =>
    obtain ⟨hN, hI, hJ⟩ := ih
    rw [mixTimes_succ]
    refine ⟨?_, ?_, ?_⟩
    · rw [smixWork, hN, BitVec.add_assoc]
      rw [show BitVec.ofNat 11 (n + 1) = BitVec.ofNat 11 n + 1 from BitVec.ofNat_add n 1]
    · simp only [smixWork, nextIndex]
      rw [hI, Nat.mod_add_mod, Nat.add_assoc]
    · simp only [smixWork, nextIndex]
      rw [hJ, Nat.mod_add_mod, Nat.add_assoc]

/-- The mixing loop neither reads nor writes the block words and the round index (R35). -/
theorem mixTimes_block (n : Nat) (k : Work p) (a b : Word p.width) (i : BitVec 8) :
    mixTimes n ((k.setAB a b).setRND i) = ((mixTimes n k).setAB a b).setRND i := by
  induction n generalizing k with
  | zero => rfl
  | succ n ih => exact ih (smixWork k)

/-- SETUPS writes over everything it reads: from any two working storages, with keys that agree on their first `b`
bytes, it builds the same schedule and leaves the block words and the round index alone (R35, R44, R160). -/
theorem setupsWork_congr {key key' : Memory} (hk : ∀ i, i < p.b.val → key.read i = key'.read i) (k k' : Work p) :
    setupsWork key k = ((setupsWork key' k').setAB k.A k.B).setRND k.RND := by
  unfold setupsWork
  rw [← mixTimes_block]
  congr 1
  have hS : (sseedWork (kfoldWork key k)).S = (sseedWork (kfoldWork key' k')).S := by
    apply Vector.ext
    intro i hi
    rw [getElem_sseed, getElem_sseed]
  have hL : (kfoldWork key k).L = (kfoldWork key' k').L := foldKey_congr hk _ _ _
  unfold clearMixWork Work.setAB Work.setRND
  simp only [Work.mk.injEq, true_and]
  exact ⟨rfl, rfl, rfl, hS, hL⟩

@[simp] theorem setupsWork_A (key : Memory) (k : Work p) : (setupsWork key k).A = k.A := by
  rw [setupsWork_congr (fun _ _ => rfl) k k]; rfl

@[simp] theorem setupsWork_B (key : Memory) (k : Work p) : (setupsWork key k).B = k.B := by
  rw [setupsWork_congr (fun _ _ => rfl) k k]; rfl

@[simp] theorem setupsWork_RND (key : Memory) (k : Work p) : (setupsWork key k).RND = k.RND := by
  rw [setupsWork_congr (fun _ _ => rfl) k k]; rfl

/-- The table SETUPS builds depends on the first `b` key bytes only (R160, R171). -/
theorem setupsWork_S_congr {key key' : Memory} (hk : ∀ i, i < p.b.val → key.read i = key'.read i) (k k' : Work p) :
    (setupsWork key k).S = (setupsWork key' k').S := by
  rw [setupsWork_congr hk k k']; rfl

end Sys2Proof.Machine
end

