-- ==== Sys2Proof/Laws/Table.lean ====
section
/-! SUPPORT. The table that SETUPS builds is the reference's expanded table (42_key_scheduler.md R168). -/

namespace Sys2Proof.Machine

variable {p : Params}

/-- The working storage stands for a state of the reference's mixing loop. -/
structure StandsFor (k : Work p) (x : Reference.Mix p.width.bits) : Prop where
  table : ∀ i (h : i < p.t), k.S[i] = x.S i
  words : ∀ j (h : j < p.c), k.L[j] = x.L j
  accA : k.KA = x.A
  accB : k.KB = x.B
  indexI : k.I.val = x.i
  indexJ : k.J.val = x.j

/-- SMIX is one step of the reference's mixing loop (R166). -/
theorem StandsFor.smix {k : Work p} {x : Reference.Mix p.width.bits} (h : StandsFor k x) :
    StandsFor (smixWork k) (Reference.mixStep p.t p.c x) := by
  have hI : k.S[k.I] = x.S x.i := by rw [← h.indexI]; exact h.table k.I k.I.isLt
  have hJ : k.L[k.J] = x.L x.j := by rw [← h.indexJ]; exact h.words k.J k.J.isLt
  refine ⟨fun i hi => ?_, fun j hj => ?_, ?_, ?_, ?_, ?_⟩
  · by_cases e : i = x.i
    · subst e
      simp [smixWork, Reference.mixStep, h.indexI, hI, h.accA, h.accB, addW_eq_add, rotlW_eq_rotateLeft]
    · simp only [smixWork, Reference.mixStep, Function.update_of_ne e, ← h.table i hi]
      exact Vector.getElem_set_ne _ _ (by rw [h.indexI]; exact Ne.symm e)
  · by_cases e : j = x.j
    · subst e
      simp [smixWork, Reference.mixStep, h.indexJ, hI, hJ, h.accA, h.accB, addW_eq_add, rotlW_eq_rotateLeft]
    · simp only [smixWork, Reference.mixStep, Function.update_of_ne e, ← h.words j hj]
      exact Vector.getElem_set_ne _ _ (by rw [h.indexJ]; exact Ne.symm e)
  · simp [smixWork, Reference.mixStep, hI, h.accA, h.accB, addW_eq_add, rotlW_eq_rotateLeft]
  · simp [smixWork, Reference.mixStep, hI, hJ, h.accA, h.accB, addW_eq_add, rotlW_eq_rotateLeft]
  · simp [smixWork, Reference.mixStep, nextIndex, h.indexI]
  · simp [smixWork, Reference.mixStep, nextIndex, h.indexJ]

/-- The mixing loop is the reference's mixing loop (R167). -/
theorem StandsFor.mixTimes {k : Work p} {x : Reference.Mix p.width.bits} (h : StandsFor k x) (n : Nat) :
    StandsFor (mixTimes n k) ((Reference.mixStep p.t p.c)^[n] x) := by
  induction n generalizing k x with
  | zero => exact h
  | succ n ih => exact ih h.smix

/-- Before the first SMIX, SETUPS stands at the reference's start (R161 to R165). -/
theorem standsFor_start (key : Memory) (k : Work p) :
    StandsFor (clearMixWork (sseedWork (kfoldWork key k))) (Reference.mixStart p key.read) := by
  refine ⟨fun i hi => getElem_sseed _ i hi, fun j hj => ?_, rfl, rfl, rfl, rfl⟩
  apply BitVec.eq_of_toNat_eq
  have h := toNat_kfold key k j hj
  have hlt := (kfoldWork key k).L[j].isLt
  rw [h] at hlt
  have hsum : Reference.littleEndian
      (fun i => if j * p.u + i < p.b.val then key.read (j * p.u + i) else 0) p.u
      = ∑ i ∈ Finset.range p.u,
          if j * p.u + i < p.b.val then (key.read (j * p.u + i)).toNat * 2 ^ (8 * i) else 0 := by
    refine Finset.sum_congr rfl fun i _ => ?_
    split <;> simp [*]
  show (kfoldWork key k).L[j].toNat = _
  rw [h, Reference.mixStart, BitVec.toNat_ofNat, hsum, Nat.mod_eq_of_lt hlt]

/-- The table SETUPS builds is the reference's expanded table (R168). -/
theorem getElem_setupsWork_S (key : Memory) (k : Work p) (i : Nat) (hi : i < p.t) :
    (setupsWork key k).S[i] = Reference.expandedTable p key.read i :=
  ((standsFor_start key k).mixTimes p.nMix).table i hi

end Sys2Proof.Machine
end

