-- ==== Sys2Proof/Laws/Command.lean ====
section
/-! SUPPORT. What a command leaves (43_encrypt.md R192, 44_decrypt.md R212), and the round trip (R216). -/

namespace Sys2Proof.Machine

variable {p : Params}

/-- The words the block is packed into. -/
def blockA (m : Mach p) : Word p.width := packWord m 0

/-- The words the block is packed into. -/
def blockB (m : Mach p) : Word p.width := packWord m p.u

/-- The table a command works with. -/
def commandTable (m : Mach p) : Nat → Word p.width := Reference.tableWord (setupsWork m.inp.KEY m.work).S

/-- `DOUT` after both words of a block are stored. -/
def storedBlock (p : Params) (d : Memory) (a b : Word p.width) : Memory := storeWord (storeWord d 0 a p.u) p.u b p.u

/-- What the successful end of a command leaves, given the stored words. -/
def finished (m : Mach p) (ab : Word p.width × Word p.width) : Mach p :=
  { inp := m.inp
    out :=
      { BUSY := false
        DONE := true
        STATUS := .ok
        DOUT := storedBlock p m.out.DOUT ab.1 ab.2 }
    work := Work.unspecified p m.free
    bus := m.bus.undriven m.free
    seq := []
    free := m.free + 1 }

/-- The length tests pass exactly on the right lengths (R253, R254). -/
theorem lengthError_eq_none (inp : HostIn) :
    lengthError p inp = none ↔ inp.DLEN.toNat = p.blockBytes ∧ inp.KLEN.toNat = p.b.val := by
  unfold lengthError
  split
  · simp_all
  · split <;> simp_all

/-- The length tests raise one of two errors (R251). -/
theorem lengthError_cases (inp : HostIn) :
    lengthError p inp = none ∨ lengthError p inp = some .eBlockSize ∨ lengthError p inp = some .eKeyLength := by
  unfold lengthError
  split
  · exact .inr (.inl rfl)
  · split
    · exact .inr (.inr rfl)
    · exact .inl rfl

/-- The successful end of a command, from the core that stands before its first UNPACK. -/
theorem complete_storeBlock (m : Mach p) : complete (storeBlock m) = finished m (m.work.A, m.work.B) := rfl

/-- What a command's end leaves does not depend on the working storage, nor on the buses it has driven. -/
theorem finished_setWork_setups (m : Mach p) (k : Work p) (ab : Word p.width × Word p.width) :
    finished ((setupsMach (loadBlock m)).setWork k) ab = finished m ab := rfl

/-- Before the rounds the block words are those packed from `DIN` and the table is the command's. -/
theorem setupsMach_loadBlock_work (m : Mach p) :
    (setupsMach (loadBlock m)).work.A = blockA m ∧ (setupsMach (loadBlock m)).work.B = blockB m ∧
      Reference.tableWord (setupsMach (loadBlock m)).work.S = commandTable m := by
  refine ⟨setupsWork_A _ _, setupsWork_B _ _, ?_⟩
  rw [commandTable, ← setupsWork_S_congr (fun _ _ => rfl) (loadBlock m).work m.work]
  rfl

/-- ENCODE after its tests (R192). -/
theorem runEncode_eq (m : Mach p) :
    runEncode m = finished m (Reference.encrypt (commandTable m) p.r.val (blockA m, blockB m)) := by
  obtain ⟨hA, hB, hS⟩ := setupsMach_loadBlock_work m
  obtain ⟨i, hi⟩ := encRounds_whitenWork (setupsMach (loadBlock m)).work p.r.val (Nat.le_refl _)
  rw [runEncode, encryptWork, hi, complete_storeBlock, finished_setWork_setups, hA, hB, hS]
  rfl

/-- DECODE after its tests (R212). -/
theorem runDecode_eq (m : Mach p) :
    runDecode m = finished m (Reference.decrypt (commandTable m) p.r.val (blockA m, blockB m)) := by
  obtain ⟨hA, hB, hS⟩ := setupsMach_loadBlock_work m
  obtain ⟨i, hi⟩ := unwhitenWork_decRounds (setupsMach (loadBlock m)).work p.r.val (Nat.le_refl _)
  rw [runDecode, decryptWork, hi, complete_storeBlock, finished_setWork_setups, hA, hB, hS]
  rfl

/-- The bytes of a stored block (R73). -/
theorem read_storedBlock (d : Memory) (hd : d.wf p.blockBytes = true) (a b : Word p.width) (k : Nat) :
    (storedBlock p d a b).read k
      = if k < p.u then byteOf a k else if k < p.blockBytes then byteOf b (k - p.u) else d.read k := by
  have h1 : 0 + p.u ≤ p.blockBytes := by unfold Params.blockBytes; omega
  have h2 : p.u + p.u ≤ p.blockBytes := by unfold Params.blockBytes; omega
  rw [storedBlock, read_storeWord _ b h2 (wf_storeWord d a h1 hd), read_storeWord d a h1 hd]
  unfold Params.blockBytes
  by_cases hk : k < p.u
  · rw [if_neg (by omega), if_pos (by omega), if_pos hk, Nat.sub_zero]
  · rw [if_neg hk]
    by_cases hk2 : k < 2 * p.u
    · rw [if_pos (by omega), if_pos hk2]
    · rw [if_neg (by omega), if_neg (by omega), if_neg hk2]

/-- A stored block is canonical. -/
theorem wf_storedBlock (d : Memory) (hd : d.wf p.blockBytes = true) (a b : Word p.width) :
    (storedBlock p d a b).wf p.blockBytes = true := by
  refine wf_storeWord _ _ ?_ (wf_storeWord _ _ ?_ hd) <;> unfold Params.blockBytes <;> omega

/-- A word is whole bytes (R235). -/
theorem loadWord_of_wordBytes (x : Word p.width) (mem : Memory) (off : Nat)
    (h : ∀ k, k < p.u → mem.read (off + k) = byteOf x k) : loadWord p.width.bits mem off p.u = x :=
  loadWord_of_bytes x mem off p.u p.bits_eq h

/-- A core whose `DIN` holds the block another core stored packs the words that were stored (R234). -/
theorem block_of_storedBlock (d : Memory) (hd : d.wf p.blockBytes = true) (a b : Word p.width) (m : Mach p)
    (h : ∀ k, k < p.blockBytes → m.inp.DIN.read k = (storedBlock p d a b).read k) : (blockA m, blockB m) = (a, b) := by
  have hb : p.blockBytes = 2 * p.u := rfl
  have hA : blockA m = a := loadWord_of_wordBytes a _ 0 fun k hk => by
    rw [h _ (by omega), read_storedBlock d hd, if_pos (by omega), Nat.zero_add]
  have hB : blockB m = b := loadWord_of_wordBytes b _ p.u fun k hk => by
    rw [h _ (by omega), read_storedBlock d hd, if_neg (by omega), if_pos (by omega), Nat.add_sub_cancel_left]
  rw [hA, hB]

/-- Storing the words packed from `DIN` writes the bytes of `DIN` (R234). -/
theorem read_storedBlock_block (d : Memory) (hd : d.wf p.blockBytes = true) (m : Mach p) (k : Nat)
    (hk : k < p.blockBytes) : (storedBlock p d (blockA m) (blockB m)).read k = m.inp.DIN.read k := by
  have hb : p.blockBytes = 2 * p.u := rfl
  have hbits : 8 * p.u ≤ p.width.bits := Nat.le_of_eq p.bits_eq.symm
  rw [read_storedBlock d hd]
  by_cases h : k < p.u
  · rw [if_pos h, blockA, packWord, byteOf_loadWord _ _ _ _ h hbits, Nat.zero_add]
  · rw [if_neg h, if_pos hk, blockB, packWord, byteOf_loadWord _ _ _ _ (by omega) hbits,
      Nat.add_sub_cancel' (by omega)]

/-- The table of a command depends on the first `b` key bytes only (R171). -/
theorem commandTable_congr {m m' : Mach p} (hk : ∀ i, i < p.b.val → m.inp.KEY.read i = m'.inp.KEY.read i) :
    commandTable m = commandTable m' := by
  rw [commandTable, commandTable, setupsWork_S_congr hk m.work m'.work]

end Sys2Proof.Machine
end

