-- ==== Sys2Proof/Laws/Decode.lean ====
section
/-! SUPPORT. The laws of the operation word (30_encoding.md): its fields, and what selecting a row says. -/

namespace Sys2Proof

/-- The low byte of an operation word is its `UNIT` and `SEL` (R101). -/
theorem opw_and_low (arg : BitVec 8) (unit sel : BitVec 4) : opw arg unit sel &&& 0x00FF#16 = opw 0 unit sel := by
  unfold opw
  apply BitVec.eq_of_getLsbD_eq
  intro i hi
  simp only [BitVec.getLsbD_append, BitVec.getLsbD_and]
  interval_cases i <;> simp

/-- The high byte of an operation word is its `ARG` (R101). -/
@[simp] theorem opwArg_opw (arg : BitVec 8) (unit sel : BitVec 4) : opwArg (opw arg unit sel) = arg := by
  unfold opwArg opw
  apply BitVec.eq_of_getLsbD_eq
  intro i hi
  simp only [BitVec.getLsbD_append, BitVec.getLsbD_extractLsb']
  interval_cases i <;> simp

/-- A word whose low byte is `UNIT`, `SEL` is the operation word of them and its `ARG`. -/
theorem opw_of_low (x : BitVec 16) (unit sel : BitVec 4) (h : x &&& 0x00FF#16 = opw 0 unit sel) :
    opw (opwArg x) unit sel = x := by
  have hx : opw (opwArg x) unit sel = (x &&& 0xFF00#16) ||| (x &&& 0x00FF#16) := by
    rw [h]
    unfold opw opwArg
    apply BitVec.eq_of_getLsbD_eq
    intro i hi
    simp only [BitVec.getLsbD_append, BitVec.getLsbD_and, BitVec.getLsbD_or, BitVec.getLsbD_extractLsb']
    interval_cases i <;> simp
  rw [hx, ← BitVec.and_or_distrib_left]
  exact BitVec.and_allOnes

/-- The operation a row builds from a word that selects the row has that word. -/
theorem encode_of_selects (x : BitVec 16) :
    ∀ row ∈ opcodeRows, row.selects x = true → encode (row.build (opwArg x)) = x := by
  simp only [opcodeRows, opcodeRowsLow, opcodeRowsHigh, List.cons_append, List.nil_append, List.forall_mem_cons,
    OpcodeRow.selects, beq_iff_eq, List.not_mem_nil, false_imp_iff, implies_true, and_true,
    show (0xFFFF#16 : BitVec 16) = BitVec.allOnes 16 from rfl, BitVec.and_allOnes]
  refine ⟨?_, ?_, ?_, ?_, ?_, ?_, ?_, ?_, ?_, ?_, ?_, ?_, ?_, ?_, ?_, ?_, ?_, ?_⟩ <;> intro h
  all_goals first
    | exact h.symm
    | exact opw_of_low x _ _ h

/-- A word that decodes selects a row, and the row builds the operation from its `ARG` (R104). -/
theorem row_of_decode {x : BitVec 16} {i : Instr} (h : decode x = .ok i) :
    ∃ row ∈ opcodeRows, row.selects x = true ∧ row.build (opwArg x) = i := by
  unfold decode at h
  split at h
  · next row hf => exact ⟨row, List.mem_of_find?_eq_some hf, (List.find?_some hf : _), by simpa using h⟩
  · simp at h

/-- A word that is rejected selects no row, and the other way round (R106). -/
theorem decode_error_iff (x : BitVec 16) :
    (∃ e, decode x = .error e) ↔ opcodeRows.find? (fun row => row.selects x) = none := by
  unfold decode
  cases opcodeRows.find? (fun row => row.selects x) <;> simp

end Sys2Proof
end

