-- ==== Sys2Proof/Laws/HostPort.lean ====
section
/-! SUPPORT. What the host's moves and readings can do, said once: the inversion `hostMove_next`, and when a reading
answers. -/

namespace Sys2Proof.Machine

variable {p : Params}

/-- No command is in flight: `BUSY` is 0 and no pulse stands. -/
theorem inFlight_eq_false (m : Mach p) : m.inFlight = false ↔ m.out.BUSY = false ∧ m.inp.START = false := by
  simp [Mach.inFlight]

/-- A command is in flight: `BUSY` is 1 or a pulse stands. -/
theorem inFlight_eq_true (m : Mach p) : m.inFlight = true ↔ m.out.BUSY = true ∨ m.inp.START = true := by
  simp [Mach.inFlight]

/-- Inputs are changed while no command is in flight (R285). -/
theorem put_of_free {s : State} (h : s.mach.inFlight = false) (inp : HostIn) :
    s.put inp = .next ⟨s.params, { s.mach with inp := inp }⟩ := by
  simp [State.put, h, State.answer]

/-- Inputs are held while a command is in flight (R285). -/
theorem put_of_inFlight {s : State} (h : s.mach.inFlight = true) (inp : HostIn) : s.put inp = .refused .inputsHeld := by
  simp [State.put, h]

/-- A next state of a change of the inputs. -/
theorem put_next {s t : State} {inp : HostIn} (h : s.put inp = .next t) :
    s.mach.inFlight = false ∧ t = ⟨s.params, { s.mach with inp := inp }⟩ := by
  cases hf : s.mach.inFlight with
  | false => exact ⟨rfl, (Host.Outcome.next.inj ((put_of_free hf inp).symm.trans h)).symm⟩
  | true => rw [put_of_inFlight hf] at h; cases h

/-- A pulse given to a core that is not busy is sampled at once (R41; log 26). -/
theorem idleStep_start {m : Mach p} (h : m.out.BUSY = false) (op : BitVec 1) :
    idleStep { m with inp := { m.inp with OP := op, START := true } }
      = { m with
          inp := { m.inp with OP := op, START := false }
          out := { m.out with BUSY := true, DONE := false }
          seq := commandLines p op } := by
  simp [idleStep, h, beginCommand]

/-- Everything a host move can do when it answers a next state: reset, or, with no command in flight, a byte inside its
buffer, the lengths, or the begin of a command. -/
theorem hostMove_next {m : Mach p} {move : HostMove} {t : State} (h : hostMove move ⟨p, m⟩ = .next t) :
    (move = .reset ∧ t = ⟨p, applyReset m⟩) ∨
    m.inFlight = false ∧
      ((∃ off v, move = .keyByte off v ∧ off < keyCapacity ∧
          t = ⟨p, { m with inp := { m.inp with KEY := m.inp.KEY.write off v } }⟩) ∨
       (∃ off v, move = .blockByte off v ∧ off < dinCapacity ∧
          t = ⟨p, { m with inp := { m.inp with DIN := m.inp.DIN.write off v } }⟩) ∨
       (∃ klen dlen, move = .lengths klen dlen ∧
          t = ⟨p, { m with inp := { m.inp with KLEN := klen, DLEN := dlen } }⟩) ∨
       (∃ op, move = .start op ∧
          t = ⟨p,
            { m with
              inp := { m.inp with OP := op, START := false }
              out := { m.out with BUSY := true, DONE := false }
              seq := commandLines p op }⟩)) := by
  cases move with
  | reset => exact .inl ⟨rfl, (Host.Outcome.next.inj h).symm⟩
  | keyByte off v =>
    simp only [hostMove] at h
    split at h
    · next hlt =>
      obtain ⟨hf, rfl⟩ := put_next h
      exact .inr ⟨hf, .inl ⟨off, v, rfl, hlt, rfl⟩⟩
    · cases h
  | blockByte off v =>
    simp only [hostMove] at h
    split at h
    · next hlt =>
      obtain ⟨hf, rfl⟩ := put_next h
      exact .inr ⟨hf, .inr (.inl ⟨off, v, rfl, hlt, rfl⟩)⟩
    · cases h
  | lengths klen dlen =>
    obtain ⟨hf, rfl⟩ := put_next h
    exact .inr ⟨hf, .inr (.inr (.inl ⟨klen, dlen, rfl, rfl⟩))⟩
  | start op =>
    simp only [hostMove] at h
    split at h
    · cases h
    · next hf =>
      have hf' : m.inFlight = false := by simpa using hf
      refine .inr ⟨hf', .inr (.inr (.inr ⟨op, rfl, ?_⟩))⟩
      rw [← idleStep_start ((inFlight_eq_false m).mp hf').1 op]
      exact (Host.Outcome.next.inj h).symm

/-- The output block may be read exactly while `DONE` is 1 and `STATUS` is OK (R287). -/
theorem outputValid_iff (m : Mach p) : m.outputValid = true ↔ m.out.DONE = true ∧ m.out.STATUS = .ok := by
  simp [Mach.outputValid]

/-- The bytes of a buffer, one by one. -/
theorem getElem?_readBytes (mem : Memory) (off n k : Nat) (h : k < n) :
    (readBytes mem off n)[k]? = some (mem.read (off + k)) := by
  simp [readBytes, h]

/-- `n` bytes are read. -/
@[simp] theorem length_readBytes (mem : Memory) (off n : Nat) : (readBytes mem off n).length = n := by
  simp [readBytes]

end Sys2Proof.Machine
end

