-- ==== Sys2Proof/Laws/PerInstr.lean ====
section
/-! SUPPORT. Families of statements for all operations, one lemma per constructor. `RoundTrip`: an operation's word decodes
to the operation, with every value of `ARG`. -/

namespace Sys2Proof.Laws.RoundTrip

/-- The operation word of `i` decodes to `i` (30_encoding.md R104). -/
def Statement (i : Instr) : Prop := Sys2Proof.decode (Sys2Proof.encode i) = .ok i

theorem encode : Statement .encode := rfl
theorem decode : Statement .decode := rfl
theorem addw : Statement .addw := rfl
theorem subw : Statement .subw := rfl
theorem xorw : Statement .xorw := rfl
theorem rotl : Statement .rotl := rfl
theorem rotr : Statement .rotr := rfl
theorem pqsel : Statement .pqsel := rfl
theorem setups : Statement .setups := rfl
theorem kfold : Statement .kfold := rfl
theorem sseed : Statement .sseed := rfl
theorem smix : Statement .smix := rfl
theorem whiten : Statement .whiten := rfl
theorem unwhiten : Statement .unwhiten := rfl

theorem encrnd (i : BitVec 8) : Statement (.encrnd i) := by
  unfold Statement
  revert i
  decide +kernel

theorem decrnd (i : BitVec 8) : Statement (.decrnd i) := by
  unfold Statement
  revert i
  decide +kernel

theorem pack (off : BitVec 8) : Statement (.pack off) := by
  unfold Statement
  revert off
  decide +kernel

theorem unpack (off : BitVec 8) : Statement (.unpack off) := by
  unfold Statement
  revert off
  decide +kernel

end Sys2Proof.Laws.RoundTrip
end

