-- ==== Sys2Proof/Laws/State.lean ====
section
/-! SUPPORT. One lemma per field per named update of the state, true by definition: what the update writes and what it
leaves alone. -/

namespace Sys2Proof.Machine

variable {p : Params} (m : Mach p) (k : Work p)

@[simp] theorem Mach.setWork_inp (k : Work p) : (m.setWork k).inp = m.inp := rfl
@[simp] theorem Mach.setWork_out (k : Work p) : (m.setWork k).out = m.out := rfl
@[simp] theorem Mach.setWork_work (k : Work p) : (m.setWork k).work = k := rfl
@[simp] theorem Mach.setWork_bus (k : Work p) : (m.setWork k).bus = m.bus := rfl
@[simp] theorem Mach.setWork_seq (k : Work p) : (m.setWork k).seq = m.seq := rfl
@[simp] theorem Mach.setWork_free (k : Work p) : (m.setWork k).free = m.free := rfl

@[simp] theorem Mach.driveZ_inp (z : Word p.width) : (m.driveZ z).inp = m.inp := rfl
@[simp] theorem Mach.driveZ_out (z : Word p.width) : (m.driveZ z).out = m.out := rfl
@[simp] theorem Mach.driveZ_work (z : Word p.width) : (m.driveZ z).work = m.work := rfl
@[simp] theorem Mach.driveZ_bus (z : Word p.width) : (m.driveZ z).bus = { m.bus with Z := z } := rfl
@[simp] theorem Mach.driveZ_seq (z : Word p.width) : (m.driveZ z).seq = m.seq := rfl
@[simp] theorem Mach.driveZ_free (z : Word p.width) : (m.driveZ z).free = m.free := rfl

@[simp] theorem Mach.driveX_inp (x : Word p.width) : (m.driveX x).inp = m.inp := rfl
@[simp] theorem Mach.driveX_out (x : Word p.width) : (m.driveX x).out = m.out := rfl
@[simp] theorem Mach.driveX_work (x : Word p.width) : (m.driveX x).work = m.work := rfl
@[simp] theorem Mach.driveX_bus (x : Word p.width) : (m.driveX x).bus = { m.bus with X := x } := rfl
@[simp] theorem Mach.driveX_seq (x : Word p.width) : (m.driveX x).seq = m.seq := rfl
@[simp] theorem Mach.driveX_free (x : Word p.width) : (m.driveX x).free = m.free := rfl

@[simp] theorem Mach.drivePQ_inp (P Q : Word p.width) : (m.drivePQ P Q).inp = m.inp := rfl
@[simp] theorem Mach.drivePQ_out (P Q : Word p.width) : (m.drivePQ P Q).out = m.out := rfl
@[simp] theorem Mach.drivePQ_work (P Q : Word p.width) : (m.drivePQ P Q).work = m.work := rfl
@[simp] theorem Mach.drivePQ_bus (P Q : Word p.width) : (m.drivePQ P Q).bus = { m.bus with P := P, Q := Q } := rfl
@[simp] theorem Mach.drivePQ_seq (P Q : Word p.width) : (m.drivePQ P Q).seq = m.seq := rfl
@[simp] theorem Mach.drivePQ_free (P Q : Word p.width) : (m.drivePQ P Q).free = m.free := rfl

@[simp] theorem Mach.setDOUT_inp (d : Memory) : (m.setDOUT d).inp = m.inp := rfl
@[simp] theorem Mach.setDOUT_out (d : Memory) : (m.setDOUT d).out = { m.out with DOUT := d } := rfl
@[simp] theorem Mach.setDOUT_work (d : Memory) : (m.setDOUT d).work = m.work := rfl
@[simp] theorem Mach.setDOUT_bus (d : Memory) : (m.setDOUT d).bus = m.bus := rfl
@[simp] theorem Mach.setDOUT_seq (d : Memory) : (m.setDOUT d).seq = m.seq := rfl
@[simp] theorem Mach.setDOUT_free (d : Memory) : (m.setDOUT d).free = m.free := rfl

@[simp] theorem Mach.setSeq_inp (l : List SeqItem) : (m.setSeq l).inp = m.inp := rfl
@[simp] theorem Mach.setSeq_out (l : List SeqItem) : (m.setSeq l).out = m.out := rfl
@[simp] theorem Mach.setSeq_work (l : List SeqItem) : (m.setSeq l).work = m.work := rfl
@[simp] theorem Mach.setSeq_bus (l : List SeqItem) : (m.setSeq l).bus = m.bus := rfl
@[simp] theorem Mach.setSeq_seq (l : List SeqItem) : (m.setSeq l).seq = l := rfl
@[simp] theorem Mach.setSeq_free (l : List SeqItem) : (m.setSeq l).free = m.free := rfl

@[simp] theorem Work.setAB_A (a b : Word p.width) : (k.setAB a b).A = a := rfl
@[simp] theorem Work.setAB_B (a b : Word p.width) : (k.setAB a b).B = b := rfl
@[simp] theorem Work.setAB_KA (a b : Word p.width) : (k.setAB a b).KA = k.KA := rfl
@[simp] theorem Work.setAB_KB (a b : Word p.width) : (k.setAB a b).KB = k.KB := rfl
@[simp] theorem Work.setAB_I (a b : Word p.width) : (k.setAB a b).I = k.I := rfl
@[simp] theorem Work.setAB_J (a b : Word p.width) : (k.setAB a b).J = k.J := rfl
@[simp] theorem Work.setAB_N (a b : Word p.width) : (k.setAB a b).N = k.N := rfl
@[simp] theorem Work.setAB_RND (a b : Word p.width) : (k.setAB a b).RND = k.RND := rfl
@[simp] theorem Work.setAB_S (a b : Word p.width) : (k.setAB a b).S = k.S := rfl
@[simp] theorem Work.setAB_L (a b : Word p.width) : (k.setAB a b).L = k.L := rfl

@[simp] theorem Work.setRND_A (i : BitVec 8) : (k.setRND i).A = k.A := rfl
@[simp] theorem Work.setRND_B (i : BitVec 8) : (k.setRND i).B = k.B := rfl
@[simp] theorem Work.setRND_KA (i : BitVec 8) : (k.setRND i).KA = k.KA := rfl
@[simp] theorem Work.setRND_KB (i : BitVec 8) : (k.setRND i).KB = k.KB := rfl
@[simp] theorem Work.setRND_I (i : BitVec 8) : (k.setRND i).I = k.I := rfl
@[simp] theorem Work.setRND_J (i : BitVec 8) : (k.setRND i).J = k.J := rfl
@[simp] theorem Work.setRND_N (i : BitVec 8) : (k.setRND i).N = k.N := rfl
@[simp] theorem Work.setRND_RND (i : BitVec 8) : (k.setRND i).RND = i := rfl
@[simp] theorem Work.setRND_S (i : BitVec 8) : (k.setRND i).S = k.S := rfl
@[simp] theorem Work.setRND_L (i : BitVec 8) : (k.setRND i).L = k.L := rfl

@[simp] theorem Work.setL_A (L : Vector (Word p.width) p.c) : (k.setL L).A = k.A := rfl
@[simp] theorem Work.setL_B (L : Vector (Word p.width) p.c) : (k.setL L).B = k.B := rfl
@[simp] theorem Work.setL_KA (L : Vector (Word p.width) p.c) : (k.setL L).KA = k.KA := rfl
@[simp] theorem Work.setL_KB (L : Vector (Word p.width) p.c) : (k.setL L).KB = k.KB := rfl
@[simp] theorem Work.setL_I (L : Vector (Word p.width) p.c) : (k.setL L).I = k.I := rfl
@[simp] theorem Work.setL_J (L : Vector (Word p.width) p.c) : (k.setL L).J = k.J := rfl
@[simp] theorem Work.setL_N (L : Vector (Word p.width) p.c) : (k.setL L).N = k.N := rfl
@[simp] theorem Work.setL_RND (L : Vector (Word p.width) p.c) : (k.setL L).RND = k.RND := rfl
@[simp] theorem Work.setL_S (L : Vector (Word p.width) p.c) : (k.setL L).S = k.S := rfl
@[simp] theorem Work.setL_L (L : Vector (Word p.width) p.c) : (k.setL L).L = L := rfl

@[simp] theorem Work.setS_A (S : Vector (Word p.width) p.t) : (k.setS S).A = k.A := rfl
@[simp] theorem Work.setS_B (S : Vector (Word p.width) p.t) : (k.setS S).B = k.B := rfl
@[simp] theorem Work.setS_KA (S : Vector (Word p.width) p.t) : (k.setS S).KA = k.KA := rfl
@[simp] theorem Work.setS_KB (S : Vector (Word p.width) p.t) : (k.setS S).KB = k.KB := rfl
@[simp] theorem Work.setS_I (S : Vector (Word p.width) p.t) : (k.setS S).I = k.I := rfl
@[simp] theorem Work.setS_J (S : Vector (Word p.width) p.t) : (k.setS S).J = k.J := rfl
@[simp] theorem Work.setS_N (S : Vector (Word p.width) p.t) : (k.setS S).N = k.N := rfl
@[simp] theorem Work.setS_RND (S : Vector (Word p.width) p.t) : (k.setS S).RND = k.RND := rfl
@[simp] theorem Work.setS_S (S : Vector (Word p.width) p.t) : (k.setS S).S = S := rfl
@[simp] theorem Work.setS_L (S : Vector (Word p.width) p.t) : (k.setS S).L = k.L := rfl

@[simp] theorem clearMixWork_A : (clearMixWork k).A = k.A := rfl
@[simp] theorem clearMixWork_B : (clearMixWork k).B = k.B := rfl
@[simp] theorem clearMixWork_KA : (clearMixWork k).KA = 0 := rfl
@[simp] theorem clearMixWork_KB : (clearMixWork k).KB = 0 := rfl
@[simp] theorem clearMixWork_I : (clearMixWork k).I = ⟨0, p.t_pos⟩ := rfl
@[simp] theorem clearMixWork_J : (clearMixWork k).J = ⟨0, p.c_pos⟩ := rfl
@[simp] theorem clearMixWork_N : (clearMixWork k).N = 0 := rfl
@[simp] theorem clearMixWork_RND : (clearMixWork k).RND = k.RND := rfl
@[simp] theorem clearMixWork_S : (clearMixWork k).S = k.S := rfl
@[simp] theorem clearMixWork_L : (clearMixWork k).L = k.L := rfl

@[simp] theorem raise_inp (e : Status) : (raise e m).inp = m.inp := rfl
@[simp] theorem raise_out (e : Status) : (raise e m).out = { m.out with BUSY := false, DONE := true, STATUS := e } := rfl
@[simp] theorem raise_work (e : Status) : (raise e m).work = m.work := rfl
@[simp] theorem raise_bus (e : Status) : (raise e m).bus = m.bus := rfl
@[simp] theorem raise_seq (e : Status) : (raise e m).seq = [] := rfl
@[simp] theorem raise_free (e : Status) : (raise e m).free = m.free := rfl

@[simp] theorem complete_inp : (complete m).inp = m.inp := rfl
@[simp] theorem complete_out : (complete m).out = { m.out with BUSY := false, DONE := true, STATUS := .ok } := rfl
@[simp] theorem complete_work : (complete m).work = Work.unspecified p m.free := rfl
@[simp] theorem complete_bus : (complete m).bus = m.bus.undriven m.free := rfl
@[simp] theorem complete_seq : (complete m).seq = [] := rfl
@[simp] theorem complete_free : (complete m).free = m.free + 1 := rfl

@[simp] theorem Bus.undriven_P (b : Bus p) (n : Nat) : (b.undriven n).P = b.P := rfl
@[simp] theorem Bus.undriven_Q (b : Bus p) (n : Nat) : (b.undriven n).Q = b.Q := rfl

/-- The block words written back as they are. -/
@[simp] theorem Work.setAB_self : k.setAB k.A k.B = k := rfl

/-- The working storage written back as it is. -/
@[simp] theorem Mach.setWork_self : m.setWork m.work = m := rfl

/-- The last write of the working storage counts. -/
@[simp] theorem Mach.setWork_setWork (k k' : Work p) : (m.setWork k).setWork k' = m.setWork k' := rfl

/-- The last move of the sequencer counts. -/
@[simp] theorem Mach.setSeq_setSeq (l l' : List SeqItem) : (m.setSeq l).setSeq l' = m.setSeq l' := rfl

end Sys2Proof.Machine
end

