-- ==== Sys2Proof/Laws/Step.lean ====
section
/-! SUPPORT. What an operation and a step can do, said once: `performed` is the core after an operation that is issued
legally, `exec_eq` and `step_cases` are the inversions that later proofs cite instead of unfolding `exec` and `step`. -/

namespace Sys2Proof.Machine

variable {p : Params}

/-- What a command leaves (R190, R210). -/
def commandResult (m done : Mach p) : Mach p :=
  match lengthError p m.inp with
  | some e => raise e m
  | none => done

/-- What ENCRND and DECRND leave, given the round. -/
def roundResult (m : Mach p) (i : BitVec 8) (f : (n : Nat) → n ≤ p.r.val → Work p) : Mach p :=
  if h : p.RoundIndex i then m.setWork (f i.toNat h.2) else m

/-- The core after an operation that is issued legally. -/
def performed (i : Instr) (m : Mach p) : Mach p :=
  match i with
  | .encode => commandResult m (runEncode m)
  | .decode => commandResult m (runDecode m)
  | .addw => m.driveZ (addW m.bus.X m.bus.Y)
  | .subw => m.driveZ (subW m.bus.X m.bus.Y)
  | .xorw => m.driveZ (xorW m.bus.X m.bus.Y)
  | .rotl => m.driveZ (rotlW m.bus.X m.bus.Y.toNat)
  | .rotr => m.driveZ (rotrW m.bus.X m.bus.Y.toNat)
  | .pqsel => m.drivePQ (magicP p.width) (magicQ p.width)
  | .setups => setupsMach m
  | .kfold => m.setWork (kfoldWork m.inp.KEY m.work)
  | .sseed => m.setWork (sseedWork m.work)
  | .smix => m.setWork (smixWork m.work)
  | .whiten => m.setWork (whitenWork m.work)
  | .encrnd n => roundResult m n (encrndWork m.work)
  | .unwhiten => m.setWork (unwhitenWork m.work)
  | .decrnd n => roundResult m n (decrndWork m.work)
  | .pack off => packMach off.toNat m
  | .unpack off => unpackMach off.toNat m

/-- The two commands, the operations that the host can give (R105). -/
def isCommand : Instr → Bool
  | .encode => true
  | .decode => true
  | .addw => false
  | .subw => false
  | .xorw => false
  | .rotl => false
  | .rotr => false
  | .pqsel => false
  | .setups => false
  | .kfold => false
  | .sseed => false
  | .smix => false
  | .whiten => false
  | .encrnd _ => false
  | .unwhiten => false
  | .decrnd _ => false
  | .pack _ => false
  | .unpack _ => false

/-- An operation is issued legally: its `ARG` is in range (R103), and no command is given to a busy core (R286). -/
def legal (i : Instr) (m : Mach p) : Prop := i.wf p = true ∧ (isCommand i = true → m.out.BUSY = false)

/-- What a command answers. -/
theorem command_eq (m : Mach p) (run : Mach p → Mach p) :
    State.command ⟨p, m⟩ run
      = if m.out.BUSY then .refused .startWhileBusy else .next ⟨p, commandResult m (run m)⟩ := by
  unfold State.command commandResult
  split
  · rfl
  · cases lengthError p m.inp <;> simp [State.answer]

/-- A meaning either completes with the core after the operation, when the operation is issued legally, or refuses: a
busy core by the name of a command given to it, and an `ARG` out of range by the operation's own refusal. -/
theorem exec_eq (i : Instr) (m : Mach p) :
    (legal i m ∧ exec i ⟨p, m⟩ = .next ⟨p, performed i m⟩) ∨
    (isCommand i = true ∧ m.out.BUSY = true ∧ exec i ⟨p, m⟩ = .refused .startWhileBusy) ∨
    (i.wf p = false ∧ ∃ r, exec i ⟨p, m⟩ = .refused r) := by
  cases i with
  | encode =>
    rcases Bool.eq_false_or_eq_true m.out.BUSY with h | h
    · exact .inr (.inl ⟨rfl, h, (command_eq m runEncode).trans (if_pos h)⟩)
    · exact .inl ⟨⟨rfl, fun _ => h⟩, (command_eq m runEncode).trans (if_neg (by simp [h]))⟩
  | decode =>
    rcases Bool.eq_false_or_eq_true m.out.BUSY with h | h
    · exact .inr (.inl ⟨rfl, h, (command_eq m runDecode).trans (if_pos h)⟩)
    · exact .inl ⟨⟨rfl, fun _ => h⟩, (command_eq m runDecode).trans (if_neg (by simp [h]))⟩
  | encrnd n =>
    by_cases h : p.RoundIndex n
    · exact .inl ⟨⟨decide_eq_true h, nofun⟩, (dif_pos h).trans (by rw [performed, roundResult, dif_pos h]; rfl)⟩
    · exact .inr (.inr ⟨decide_eq_false h, _, dif_neg h⟩)
  | decrnd n =>
    by_cases h : p.RoundIndex n
    · exact .inl ⟨⟨decide_eq_true h, nofun⟩, (dif_pos h).trans (by rw [performed, roundResult, dif_pos h]; rfl)⟩
    · exact .inr (.inr ⟨decide_eq_false h, _, dif_neg h⟩)
  | pack off =>
    by_cases h : p.BlockOffset off
    · exact .inl ⟨⟨decide_eq_true h, nofun⟩, if_pos h⟩
    · exact .inr (.inr ⟨decide_eq_false h, _, if_neg h⟩)
  | unpack off =>
    by_cases h : p.BlockOffset off
    · exact .inl ⟨⟨decide_eq_true h, nofun⟩, if_pos h⟩
    · exact .inr (.inr ⟨decide_eq_false h, _, if_neg h⟩)
  | _ => exact .inl ⟨⟨rfl, nofun⟩, rfl⟩

/-- A legal operation completes. -/
theorem exec_of_legal {i : Instr} {m : Mach p} (h : legal i m) : exec i ⟨p, m⟩ = .next ⟨p, performed i m⟩ := by
  rcases exec_eq i m with ⟨_, e⟩ | ⟨hc, hb, _⟩ | ⟨hw, _⟩
  · exact e
  · rw [h.2 hc] at hb; cases hb
  · rw [h.1] at hw; cases hw

/-- A next state of a meaning is the core after the operation, and the operation was legal. -/
theorem exec_next {i : Instr} {m : Mach p} {t : State} (h : exec i ⟨p, m⟩ = .next t) :
    legal i m ∧ t = ⟨p, performed i m⟩ := by
  rcases exec_eq i m with ⟨hl, e⟩ | ⟨_, _, e⟩ | ⟨_, r, e⟩
  · rw [e] at h
    exact ⟨hl, (Host.Outcome.next.inj h).symm⟩
  · rw [e] at h; cases h
  · rw [e] at h; cases h

/-- ENCODE with the right lengths (R192). -/
theorem performed_encode (m : Mach p) (h : m.LengthsRight) :
    performed .encode m = finished m (Reference.encrypt (commandTable m) p.r.val (blockA m, blockB m)) := by
  have hn : lengthError p m.inp = none := (lengthError_eq_none _).mpr h
  rw [performed, commandResult, hn]
  exact runEncode_eq m

/-- DECODE with the right lengths (R212). -/
theorem performed_decode (m : Mach p) (h : m.LengthsRight) :
    performed .decode m = finished m (Reference.decrypt (commandTable m) p.r.val (blockA m, blockB m)) := by
  have hn : lengthError p m.inp = none := (lengthError_eq_none _).mpr h
  rw [performed, commandResult, hn]
  exact runDecode_eq m

/-- An operation that decodes on a core is legal on it. -/
theorem wf_of_decodeFor {x : BitVec 16} {i : Instr} (h : decodeFor p x = .ok i) : decode x = .ok i ∧ i.wf p = true := by
  unfold decodeFor at h
  split at h
  · next j hj =>
    split at h
    · next hw =>
      cases h
      exact ⟨hj, hw⟩
    · cases h
  · cases h

/-- An issued word that is an operation of the core: the register moves, the operation, the register moves. -/
theorem issueWord_of_decodeFor {x : BitVec 16} {i : Instr} {route : Route} {m : Mach p}
    (h : decodeFor p (routeWord route x m) = .ok i) :
    issueWord x route m = routeAnswer route (exec i ⟨p, routeIn route m⟩) := by
  rw [issueWord, h]

/-- The register moves before an operation leave the ports alone. -/
@[simp] theorem routeIn_out (route : Route) (m : Mach p) : (routeIn route m).out = m.out := by
  cases route <;> rfl

/-- The register moves after an operation leave the ports alone. -/
@[simp] theorem routeOut_out (route : Route) (m : Mach p) : (routeOut route m).out = m.out := by
  cases route <;> rfl

/-- An issued word that is a legal operation of the core completes. -/
theorem issueWord_of_legal {x : BitVec 16} {i : Instr} {route : Route} {m : Mach p}
    (h : decodeFor p (routeWord route x m) = .ok i) (hc : isCommand i = true → m.out.BUSY = false) :
    issueWord x route m = .next ⟨p, routeOut route (performed i (routeIn route m))⟩ := by
  rw [issueWord_of_decodeFor h, exec_of_legal ⟨(wf_of_decodeFor h).2, by simpa using hc⟩]
  rfl

/-- Everything a step can do when it answers a next state: sample `START` or wait, or perform one line. -/
theorem step_cases {m : Mach p} {t : State} (h : step ⟨p, m⟩ = .next t) :
    (m.seq = [] ∧ t = ⟨p, idleStep m⟩) ∨
    ∃ item rest, m.seq = item :: rest ∧
      ((item = .check ∧ t = ⟨p, checkStep (dropPulse (m.setSeq rest))⟩) ∨
       (item = .clearMix ∧
          t = ⟨p, (dropPulse (m.setSeq rest)).setWork (clearMixWork (dropPulse (m.setSeq rest)).work)⟩) ∨
       (item = .finish ∧ t = ⟨p, complete (dropPulse (m.setSeq rest))⟩) ∨
       (∃ i, item = .setRnd i ∧
          t = ⟨p, (dropPulse (m.setSeq rest)).setWork ((dropPulse (m.setSeq rest)).work.setRND i)⟩) ∨
       ∃ word route i, item = .issue word route ∧
          decodeFor p (routeWord route word (dropPulse (m.setSeq rest))) = .ok i ∧
          t = ⟨p, routeOut route (performed i (routeIn route (dropPulse (m.setSeq rest))))⟩) := by
  replace h : advance m = .next t := h
  unfold advance at h
  split at h
  · next hs => exact .inl ⟨hs, (Host.Outcome.next.inj h).symm⟩
  · next item rest hs =>
    refine .inr ⟨item, rest, hs, ?_⟩
    cases item with
    | check => exact .inl ⟨rfl, (Host.Outcome.next.inj h).symm⟩
    | clearMix => exact .inr (.inl ⟨rfl, (Host.Outcome.next.inj h).symm⟩)
    | finish => exact .inr (.inr (.inl ⟨rfl, (Host.Outcome.next.inj h).symm⟩))
    | setRnd i => exact .inr (.inr (.inr (.inl ⟨i, rfl, (Host.Outcome.next.inj h).symm⟩)))
    | issue word route =>
      refine .inr (.inr (.inr (.inr ⟨word, route, ?_⟩)))
      replace h : issueWord word route (dropPulse (m.setSeq rest)) = .next t := h
      cases hd : decodeFor p (routeWord route word (dropPulse (m.setSeq rest))) with
      | error e =>
        rw [issueWord, hd] at h
        cases h
      | ok i =>
        rw [issueWord_of_decodeFor hd] at h
        rcases exec_eq i (routeIn route (dropPulse (m.setSeq rest))) with ⟨_, e⟩ | ⟨_, _, e⟩ | ⟨_, r, e⟩
        · rw [e] at h
          exact ⟨i, rfl, rfl, (Host.Outcome.next.inj h).symm⟩
        · rw [e] at h; cases h
        · rw [e] at h; cases h

end Sys2Proof.Machine
end

