-- ==== Sys2Proof/Laws/Sequence.lean ====
section
/-! SUPPORT. The sequencer's lines (43_encrypt.md R192, 44_decrypt.md R212): what running a list of lines does, and that the
lines of each phase of a command are that phase. -/

namespace Sys2Proof.Machine

variable {p : Params}

/-- An operation's word is the operation's on every core that has the operation (R104, R111). -/
theorem decodeFor_encode {i : Instr} (h : i.wf p = true) : decodeFor p (encode i) = .ok i := by
  have hd : decode (encode i) = .ok i := by
    cases i with
    | encode => exact Laws.RoundTrip.encode
    | decode => exact Laws.RoundTrip.decode
    | addw => exact Laws.RoundTrip.addw
    | subw => exact Laws.RoundTrip.subw
    | xorw => exact Laws.RoundTrip.xorw
    | rotl => exact Laws.RoundTrip.rotl
    | rotr => exact Laws.RoundTrip.rotr
    | pqsel => exact Laws.RoundTrip.pqsel
    | setups => exact Laws.RoundTrip.setups
    | kfold => exact Laws.RoundTrip.kfold
    | sseed => exact Laws.RoundTrip.sseed
    | smix => exact Laws.RoundTrip.smix
    | whiten => exact Laws.RoundTrip.whiten
    | encrnd n => exact Laws.RoundTrip.encrnd n
    | unwhiten => exact Laws.RoundTrip.unwhiten
    | decrnd n => exact Laws.RoundTrip.decrnd n
    | pack off => exact Laws.RoundTrip.pack off
    | unpack off => exact Laws.RoundTrip.unpack off
  simp [decodeFor, hd, h]

/-- Running `l` takes the core `m` to the core `n`, whatever lines come after and whatever comes next. -/
def Runs (l : List SeqItem) (m n : Mach p) : Prop :=
  ∀ rest k, Sys2Proof.core.run (l.length + k) ⟨p, m.setSeq (l ++ rest)⟩
    = Sys2Proof.core.run k ⟨p, n.setSeq rest⟩

theorem Runs.nil (m : Mach p) : Runs [] m m := fun _ k => by simp

theorem Runs.append {l l' : List SeqItem} {m n o : Mach p} (h : Runs l m n) (h' : Runs l' n o) :
    Runs (l ++ l') m o := fun rest k => by
  rw [List.length_append, Nat.add_assoc, List.append_assoc, h, h']

theorem Runs.cons {item : SeqItem} {l : List SeqItem} {m n o : Mach p} (h : Runs [item] m n) (h' : Runs l n o) :
    Runs (item :: l) m o := Runs.append h h'

/-- A pulse that is not there is not dropped. -/
theorem dropPulse_eq {m : Mach p} (h : m.inp.START = false) : dropPulse m = m := by
  unfold dropPulse
  split
  · obtain ⟨inp, out, work, bus, seq, free⟩ := m
    obtain ⟨OP, START, KLEN, DLEN, KEY, DIN⟩ := inp
    cases h
    rfl
  · rfl

/-- One line, from a step of the core without a `START` pulse. -/
theorem Runs.line {item : SeqItem} {m n : Mach p} (hs : m.inp.START = false)
    (h : ∀ rest, performLine item (m.setSeq rest) = .next ⟨p, n.setSeq rest⟩) : Runs [item] m n := fun rest k => by
  have hstep : Sys2Proof.core.step ⟨p, m.setSeq ([item] ++ rest)⟩ = .next ⟨p, n.setSeq rest⟩ := by
    show performLine item (dropPulse ((m.setSeq (item :: rest)).setSeq rest)) = _
    rw [Mach.setSeq_setSeq, dropPulse_eq (m := m.setSeq rest) hs]
    exact h rest
  rw [List.length_singleton, Nat.add_comm]
  simp only [Host.Core.run, hstep]

/-- An operation on the select lines whose meaning does not look at the sequencer. -/
theorem Runs.issue {j i : Instr} (hw : i.wf p = true) (route : Route) {m n : Mach p} (hs : m.inp.START = false)
    (he : routeWord route (encode j) m = encode i)
    (h : ∀ rest, routeOut route (performed i (routeIn route (m.setSeq rest))) = n.setSeq rest)
    (hc : isCommand i = false := by rfl) :
    Runs [issueLine j route] m n := Runs.line hs fun rest => by
  have hd : decodeFor p (routeWord route (encode j) (m.setSeq rest)) = .ok i := by
    rw [show routeWord route (encode j) (m.setSeq rest) = encode i from he]
    exact decodeFor_encode hw
  show issueWord (encode j) route _ = _
  rw [issueWord_of_legal hd (by simp [hc]), h]

theorem wf_pack_zero : Instr.wf p (.pack 0) = true := by
  refine decide_eq_true ?_
  show 0 + p.u ≤ 2 * p.u
  omega

theorem wf_unpack_zero : Instr.wf p (.unpack 0) = true := by
  refine decide_eq_true ?_
  show 0 + p.u ≤ 2 * p.u
  omega

/-- The offset of the second word is `u` (R73). -/
theorem toNat_offsetU : (offsetU p).toNat = p.u := by
  unfold offsetU Params.u
  cases p.width <;> rfl

theorem wf_pack_u : Instr.wf p (.pack (offsetU p)) = true := by
  refine decide_eq_true ?_
  show (offsetU p).toNat + p.u ≤ 2 * p.u
  rw [toNat_offsetU]
  omega

theorem wf_unpack_u : Instr.wf p (.unpack (offsetU p)) = true := by
  refine decide_eq_true ?_
  show (offsetU p).toNat + p.u ≤ 2 * p.u
  rw [toNat_offsetU]
  omega

/-- The load lines are the load (R192). -/
theorem runs_load (m : Mach p) (hs : m.inp.START = false) : Runs (loadLines p) m (loadBlock m) := by
  refine Runs.cons (n := routeOut .zToA (packMach 0 m)) (Runs.issue wf_pack_zero _ hs rfl fun _ => rfl) (Runs.issue wf_pack_u _ hs rfl fun rest => ?_)
  show routeOut .zToB (packMach (offsetU p).toNat _) = _
  rw [toNat_offsetU]
  rfl

/-- `n` SMIX lines are `n` iterations of the mixing loop (R167). -/
theorem runs_mix (n : Nat) (m : Mach p) (hs : m.inp.START = false) :
    Runs (List.replicate n (issueLine .smix .plain)) m (m.setWork (mixTimes n m.work)) := by
  induction n generalizing m with
  | zero => exact Runs.nil m
  | succ n ih =>
    exact Runs.cons (n := m.setWork (smixWork m.work)) (Runs.issue (i := .smix) rfl _ hs rfl fun _ => rfl)
      (ih (m.setWork (smixWork m.work)) hs)

/-- The setup lines are SETUPS (R168). -/
theorem runs_setup (m : Mach p) (hs : m.inp.START = false) : Runs (setupLines p) m (setupsMach m) := by
  refine Runs.append (n := m.setWork (clearMixWork (sseedWork (kfoldWork m.inp.KEY m.work)))) ?_ (runs_mix _ _ hs)
  refine Runs.cons (n := m.setWork (kfoldWork m.inp.KEY m.work)) (Runs.issue (i := .kfold) rfl _ hs rfl fun _ => rfl) ?_
  refine Runs.cons (n := m.setWork (sseedWork (kfoldWork m.inp.KEY m.work))) (Runs.issue (i := .sseed) rfl _ hs rfl fun _ => rfl) ?_
  exact Runs.line hs fun _ => rfl

/-- The round index of a round up to `r` fits into `ARG` (R36). -/
theorem toNat_round {n : Nat} (h : n ≤ p.r.val) : (BitVec.ofNat 8 n).toNat = n := by
  have := p.r.isLt
  rw [BitVec.toNat_ofNat]
  omega

theorem roundIndex_ofNat {n : Nat} (h : n + 1 ≤ p.r.val) : p.RoundIndex (BitVec.ofNat 8 (n + 1)) := by
  unfold Params.RoundIndex
  rw [toNat_round h]
  omega

/-- A word with another `ARG` put in front (R101). -/
theorem arg_append (arg arg' : BitVec 8) (unit sel : BitVec 4) :
    arg ++ BitVec.extractLsb' 0 8 (opw arg' unit sel) = opw arg unit sel := by
  unfold opw
  apply BitVec.eq_of_getLsbD_eq
  intro i hi
  simp only [BitVec.getLsbD_append, BitVec.getLsbD_extractLsb']
  interval_cases i <;> simp

/-- The two lines of a round put the index into `RND` and perform ENCRND with it (R192, R212). -/
theorem runs_encrnd (n : Nat) (h : n + 1 ≤ p.r.val) (m : Mach p) (hs : m.inp.START = false) :
    Runs [.setRnd (BitVec.ofNat 8 (n + 1)), issueLine (.encrnd 0) .rnd] m
      (m.setWork (encrndWork (m.work.setRND (BitVec.ofNat 8 (n + 1))) (n + 1) h)) := by
  have hw : Instr.wf p (.encrnd (BitVec.ofNat 8 (n + 1))) = true := decide_eq_true (roundIndex_ofNat h)
  refine Runs.cons (n := m.setWork (m.work.setRND (BitVec.ofNat 8 (n + 1)))) (Runs.line hs fun _ => rfl) ?_
  refine Runs.issue hw _ hs (arg_append (BitVec.ofNat 8 (n + 1)) 0 _ _) fun rest => ?_
  simp only [routeIn, routeOut, performed, roundResult, dif_pos (roundIndex_ofNat h), toNat_round h]
  rfl

/-- The two lines of a round put the index into `RND` and perform DECRND with it (R192, R212). -/
theorem runs_decrnd (n : Nat) (h : n + 1 ≤ p.r.val) (m : Mach p) (hs : m.inp.START = false) :
    Runs [.setRnd (BitVec.ofNat 8 (n + 1)), issueLine (.decrnd 0) .rnd] m
      (m.setWork (decrndWork (m.work.setRND (BitVec.ofNat 8 (n + 1))) (n + 1) h)) := by
  have hw : Instr.wf p (.decrnd (BitVec.ofNat 8 (n + 1))) = true := decide_eq_true (roundIndex_ofNat h)
  refine Runs.cons (n := m.setWork (m.work.setRND (BitVec.ofNat 8 (n + 1)))) (Runs.line hs fun _ => rfl) ?_
  refine Runs.issue hw _ hs (arg_append (BitVec.ofNat 8 (n + 1)) 0 _ _) fun rest => ?_
  simp only [routeIn, routeOut, performed, roundResult, dif_pos (roundIndex_ofNat h), toNat_round h]
  rfl

/-- The encryption lines are the rounds `1 .. n` (R192). -/
theorem runs_encrypt (n : Nat) (h : n ≤ p.r.val) (m : Mach p) (hs : m.inp.START = false) :
    Runs (encryptLines n) m (m.setWork (encRounds m.work n h)) := by
  induction n with
  | zero => exact Runs.nil m
  | succ n ih => exact Runs.append (ih (Nat.le_of_succ_le h)) (runs_encrnd n h _ hs)

/-- The decryption lines are the rounds `n .. 1` (R212). -/
theorem runs_decrypt (n : Nat) (h : n ≤ p.r.val) (m : Mach p) (hs : m.inp.START = false) :
    Runs (decryptLines n) m (m.setWork (decRounds n h m.work)) := by
  induction n generalizing m with
  | zero => exact Runs.nil m
  | succ n ih => exact Runs.append (runs_decrnd n h m hs) (ih (Nat.le_of_succ_le h) (m.setWork _) hs)

/-- The transform lines are the transform of the direction (R192, R212). -/
theorem runs_transform (op : BitVec 1) (m : Mach p) (hs : m.inp.START = false) :
    Runs (transformLines p op) m (m.setWork (if op = 0 then encryptWork m.work else decryptWork m.work)) := by
  unfold transformLines
  split
  · exact Runs.cons (n := m.setWork (whitenWork m.work)) (Runs.issue (i := .whiten) rfl _ hs rfl fun _ => rfl)
      (runs_encrypt p.r.val (Nat.le_refl _) (m.setWork (whitenWork m.work)) hs)
  · exact Runs.append (runs_decrypt p.r.val (Nat.le_refl _) m hs)
      (Runs.issue (i := .unwhiten) (m := m.setWork (decRounds p.r.val (Nat.le_refl _) m.work)) rfl _ hs rfl fun _ => rfl)

/-- The two UNPACK lines are the store (R192). -/
theorem runs_store (m : Mach p) (hs : m.inp.START = false) :
    Runs [issueLine (.unpack 0) .xFromA, issueLine (.unpack (offsetU p)) .xFromB] m (storeBlock m) := by
  refine Runs.cons (n := unpackMach 0 (m.driveX m.work.A)) (Runs.issue wf_unpack_zero _ hs rfl fun _ => rfl)
    (Runs.issue wf_unpack_u _ hs rfl fun rest => ?_)
  show unpackMach (offsetU p).toNat _ = _
  rw [toNat_offsetU]
  rfl

end Sys2Proof.Machine
end

