-- ==== Sys2Proof/Tests/Slice0.lean ====
section
/-! SUPPORT. The tests: the WellFormed smoke, one operation word per constructor written out from 30_encoding.md R101 and
R104, at most two one-step tests per operation with expected values from the worked examples of the rules and from
95_test_vectors.md, and a witness for the hypotheses of every statement that has some. -/

namespace Sys2Proof.Tests

open Sys2Proof Sys2Proof.Machine

/-! ### Helpers -/

/-- `RC5-16/1/2`, the instance of 95_test_vectors.md program 1. -/
def p16 : Params := ⟨.w16, 1, 2⟩

/-- `RC5-32/12/16`, the instance of vector V1. -/
def p32 : Params := ⟨.w32, 12, 16⟩

/-- `RC5-16/0/0`, the smallest instance. -/
def pMin : Params := ⟨.w16, 0, 0⟩

/-- `RC5-64/255/255`, the largest instance. -/
def pMax : Params := ⟨.w64, 255, 255⟩

/-- A buffer of the given bytes from `i` on. -/
def buffer : List Nat → Nat → Memory
  | [], _ => []
  | v :: rest, i => (buffer rest (i + 1)).write i (BitVec.ofNat 8 v)

/-- A core after reset with a key and a block put in. -/
def loaded (p : Params) (key din : List Nat) : Mach p :=
  { Mach.reset p with
    inp :=
      { OP := 0
        START := false
        KLEN := BitVec.ofNat 16 key.length
        DLEN := BitVec.ofNat 16 din.length
        KEY := buffer key 0
        DIN := buffer din 0 } }

/-- A core after reset with operands on the buses. -/
def buses (p : Params) (x y : Nat) : State :=
  ⟨p, { Mach.reset p with bus := { Bus.reset p with X := BitVec.ofNat _ x, Y := BitVec.ofNat _ y } }⟩

/-- A core after reset with block words and a table. -/
def tabled (p : Params) (a b : Nat) (S : Nat → Nat) : State :=
  ⟨p, { Mach.reset p with
    work :=
      { Work.reset p with
        A := BitVec.ofNat _ a
        B := BitVec.ofNat _ b
        S := Vector.ofFn fun i => BitVec.ofNat _ (S i.val) } }⟩

/-- What one step on an operation word leaves, looked at by `f`. -/
def look {α : Type} (f : State → α) (s : State) (word : Nat) : Option α :=
  match step (s.withFetchWord 16 word) with
  | .next t => some (f t)
  | .fault _ => none
  | .refused _ => none

/-- The result bus as a number. -/
def busZ (s : State) : Nat := s.mach.bus.Z.toNat

/-- The block words as numbers. -/
def wordsAB (s : State) : Nat × Nat := (s.mach.work.A.toNat, s.mach.work.B.toNat)

/-- The table as numbers. -/
def tableS (s : State) : List Nat := s.mach.work.S.toList.map BitVec.toNat

/-- The key words as numbers. -/
def tableL (s : State) : List Nat := s.mach.work.L.toList.map BitVec.toNat

/-- What SMIX works on, as numbers: `KA`, `KB`, `I`, `N`, the table and the key words. -/
def mixed (s : State) : List Nat × List Nat × List Nat :=
  ([s.mach.work.KA.toNat, s.mach.work.KB.toNat, s.mach.work.I.val, s.mach.work.N.toNat], tableS s, tableL s)

/-- The output block, if it may be read, as numbers. -/
def block (s : State) : Option (List Nat) := (hostBlock s.mach).map fun l => l.map BitVec.toNat

/-- The bytes of `DOUT`. -/
def bytesOut (s : State) : List Nat := (readBytes s.mach.out.DOUT 0 s.params.blockBytes).map BitVec.toNat

/-! ### WellFormed: an ill-formed term for each check -/

theorem test_wf_encrnd_zero : Instr.wf p32 (.encrnd 0) = false := by decide
theorem test_wf_encrnd_above : Instr.wf p32 (.encrnd 13) = false := by decide
theorem test_wf_encrnd_last : Instr.wf p32 (.encrnd 12) = true := by decide
theorem test_wf_decrnd_zero : Instr.wf p32 (.decrnd 0) = false := by decide
theorem test_wf_decrnd_above : Instr.wf p32 (.decrnd 13) = false := by decide
theorem test_wf_no_round : Instr.wf pMin (.encrnd 1) = false := by decide
theorem test_wf_pack_beyond : Instr.wf p32 (.pack 5) = false := by decide
theorem test_wf_pack_last : Instr.wf p32 (.pack 4) = true := by decide
theorem test_wf_unpack_beyond : Instr.wf p32 (.unpack 5) = false := by decide

/-! ### Decoding: `ARG`, `UNIT`, `SEL` written out (R101, R104) -/

theorem test_decode_encode : decode 0b00000000_0000_0000#16 = .ok .encode := by decide
theorem test_decode_decode : decode 0b00000000_0000_0001#16 = .ok .decode := by decide
theorem test_decode_addw : decode 0b00000000_0001_0000#16 = .ok .addw := by decide
theorem test_decode_subw : decode 0b00000000_0001_0001#16 = .ok .subw := by decide
theorem test_decode_xorw : decode 0b00000000_0001_0010#16 = .ok .xorw := by decide
theorem test_decode_rotl : decode 0b00000000_0001_0011#16 = .ok .rotl := by decide
theorem test_decode_rotr : decode 0b00000000_0001_0100#16 = .ok .rotr := by decide
theorem test_decode_pqsel : decode 0b00000000_0010_0000#16 = .ok .pqsel := by decide
theorem test_decode_setups : decode 0b00000000_0011_0000#16 = .ok .setups := by decide
theorem test_decode_kfold : decode 0b00000000_0011_0001#16 = .ok .kfold := by decide
theorem test_decode_sseed : decode 0b00000000_0011_0010#16 = .ok .sseed := by decide
theorem test_decode_smix : decode 0b00000000_0011_0011#16 = .ok .smix := by decide
theorem test_decode_whiten : decode 0b00000000_0100_0000#16 = .ok .whiten := by decide
theorem test_decode_encrnd : decode 0b00001100_0100_0001#16 = .ok (.encrnd 12) := by decide
theorem test_decode_unwhiten : decode 0b00000000_0100_0010#16 = .ok .unwhiten := by decide
theorem test_decode_decrnd : decode 0b00000001_0100_0011#16 = .ok (.decrnd 1) := by decide
theorem test_decode_pack : decode 0b00000010_0101_0000#16 = .ok (.pack 2) := by decide
theorem test_decode_unpack : decode 0b00001000_0101_0001#16 = .ok (.unpack 8) := by decide
theorem test_reserved_unit : decode 0x0060#16 = .error .unit := by decide
theorem test_reserved_select : decode 0x0015#16 = .error .select := by decide
theorem test_reserved_argument : decode 0x0110#16 = .error .argument := by decide
theorem test_reserved_round : decodeFor p32 0x0D41#16 = .error .argumentRange := by decide
theorem test_table_word : decodeTableWord 16 0x0343 = some (.decrnd 3) := by decide

/-! ### One step per operation -/

/-- R131: `0xFFFFFFFF + 1` wraps. -/
theorem test_addw_wraps : look busZ (buses p32 0xFFFFFFFF 1) 0x0010 = some 0 := by decide +kernel

/-- R132: `SUBW 0x00000FF0, 0x00001234`. -/
theorem test_subw_borrow : look busZ (buses p32 0x0FF0 0x1234) 0x0011 = some 0xFFFFFDBC := by decide +kernel

/-- 95_test_vectors.md 2.2: no carry between positions. -/
theorem test_xorw : look busZ (buses p16 0x00FF 0x0FF0) 0x0012 = some 0x0F0F := by decide +kernel

/-- R134: the amount `w + 1` rotates by 1. -/
theorem test_rotl_residue : look busZ (buses p16 0x8001 0x0011) 0x0013 = some 0x0003 := by decide +kernel

/-- 95_test_vectors.md 2.3: residue zero leaves the word. -/
theorem test_rotl_zero : look busZ (buses p16 0x8001 0x8000) 0x0013 = some 0x8001 := by decide +kernel

/-- R135: `ROTR 0x8001, 1`. -/
theorem test_rotr : look busZ (buses p16 0x8001 0x0001) 0x0014 = some 0xC000 := by decide +kernel

/-- R135: `ROTR 0x123456789ABCDEF0, 4` at w = 64. -/
theorem test_rotr_64 : look busZ (buses pMax 0x123456789ABCDEF0 4) 0x0014 = some 0x0123456789ABCDEF := by decide +kernel

/-- R150: the worked example. -/
theorem test_pqsel :
    look (fun s => (s.mach.bus.P.toNat, s.mach.bus.Q.toNat)) (buses p32 0 0) 0x0020 = some (0xB7E15163, 0x9E3779B9) := by
  decide +kernel

/-- R161: `u` does not divide `b`. -/
theorem test_kfold_short : look tableL ⟨⟨.w32, 0, 5⟩, loaded _ [1, 2, 3, 4, 5] []⟩ 0x0031 = some [0x04030201, 5] := by
  decide +kernel

/-- R169: with `b = 0` the one key word is zero. -/
theorem test_kfold_empty : look tableL ⟨pMin, loaded _ [] []⟩ 0x0031 = some [0] := by decide +kernel

/-- R163: the seed at w = 16. -/
theorem test_sseed : look tableS ⟨p16, Mach.reset _⟩ 0x0032 = some [0xB7E1, 0x5618, 0xF44F, 0x9286] := by decide +kernel

/-- R166: the third iteration of program 1, with an amount of zero modulo `w`. -/
theorem test_smix_zero_amount :
    look mixed ⟨p16, (Mach.reset p16).setWork
        { Work.reset p16 with
          KA := 0x6A37#16
          KB := 0x791A#16
          I := ⟨2, by decide⟩
          N := 2
          S := #v[0xBF0D#16, 0x6A37#16, 0xF44F#16, 0x9286#16]
          L := #v[0x791A#16] }⟩ 0x0033
      = some ([0xBD06, 0xAF3A, 3, 3], [0xBF0D, 0x6A37, 0xBD06, 0x9286], [0xAF3A]) := by
  decide +kernel

/-- 95_test_vectors.md program 1: the table after SETUPS. -/
theorem test_setups :
    look (fun s => (tableS s, tableL s, s.mach.work.I.val, s.mach.work.N.toNat)) ⟨p16, loaded _ [1, 2] []⟩ 0x0030
      = some ([0x71EB, 0x32D1, 0x2AEF, 0xCFC6], [0xEA5C], 0, 12) := by
  decide +kernel

/-- R193: the worked example. -/
theorem test_whiten :
    look wordsAB (tabled p32 0x33221100 0x77665544 fun i => if i = 0 then 0xD447E233 else 0xD82EEC20) 0x0040
      = some (0x0769F333, 0x4F954164) := by
  decide +kernel

/-- R194: the worked example, round 1. -/
theorem test_encrnd :
    look wordsAB (tabled p32 0x0769F333 0x4F954164 fun i => if i = 2 then 0x84FCE219 else 0xB93353DE) 0x0141
      = some (0x14C8078D, 0x62107F49) := by
  decide +kernel

/-- 95_test_vectors.md 5.4: `A = B` before the round. -/
theorem test_encrnd_equal :
    look wordsAB (tabled p16 0x1234 0x1234 fun i => if i = 2 then 0x1111 else 0x2222) 0x0141
      = some (0x1111, 0x286C) := by
  decide +kernel

/-- R214: the worked example. -/
theorem test_unwhiten :
    look wordsAB (tabled p32 0x0769F333 0x4F954164 fun i => if i = 0 then 0xD447E233 else 0xD82EEC20) 0x0042
      = some (0x33221100, 0x77665544) := by
  decide +kernel

/-- R213: the worked example, round 12. -/
theorem test_decrnd :
    look wordsAB (tabled p32 0x9B14DC2D 0x9E8B08CF fun i => if i = 24 then 0x7AEC5407 else 0x15E8E206) 0x0C43
      = some (0xAFD01B5E, 0xAD58993C) := by
  decide +kernel

/-- R231: `PACK 4` at w = 32. -/
theorem test_pack :
    look busZ ⟨p32, loaded _ [] [0x00, 0x11, 0x22, 0x33, 0x44, 0x55, 0x66, 0x77]⟩ 0x0450 = some 0x77665544 := by
  decide +kernel

/-- R232: `UNPACK 4` of `0x9E8B08CF` at w = 32. -/
theorem test_unpack :
    look bytesOut (buses p32 0x9E8B08CF 0) 0x0451 = some [0, 0, 0, 0, 0xCF, 0x08, 0x8B, 0x9E] := by
  decide +kernel

/-- R190: the source's first known-answer vector. -/
theorem test_encode :
    look block ⟨p32, loaded _ (List.range 16) [0x00, 0x11, 0x22, 0x33, 0x44, 0x55, 0x66, 0x77]⟩ 0x0000
      = some (some [0x2D, 0xDC, 0x14, 0x9B, 0xCF, 0x08, 0x8B, 0x9E]) := by
  decide +kernel

/-- 95_test_vectors.md 6.2: both lengths wrong. -/
theorem test_encode_both_wrong :
    look (fun s => (statusCode s.mach.out.STATUS, s.mach.out.DONE, block s)) ⟨p32, loaded _ [1] [1]⟩ 0x0000
      = some (0b10, true, none) := by
  decide +kernel

/-- 95_test_vectors.md program 2. -/
theorem test_decode_program :
    look block ⟨p16, loaded _ [1, 2] [0x09, 0xD7, 0x82, 0x50]⟩ 0x0001 = some (some [0x34, 0x12, 0x78, 0x56]) := by
  decide +kernel

/-- R254: a key byte too many on a `b = 0` instance. -/
theorem test_decode_key_length :
    look (fun s => (statusCode s.mach.out.STATUS, block s)) ⟨pMin, loaded _ [1] [1, 2, 3, 4]⟩ 0x0001 = some (0b11, none) := by
  decide +kernel

/-- The lines of an ENCODE on `RC5-16/1/2`: the words of 95_test_vectors.md program 1 with SETUPS expanded. -/
theorem test_lines :
    commandLines p16 0 =
      [.check, .issue 0x0050 .zToA, .issue 0x0250 .zToB, .issue 0x0031 .plain, .issue 0x0032 .plain, .clearMix]
      ++ List.replicate 12 (.issue 0x0033 .plain)
      ++ [.issue 0x0040 .plain, .setRnd 1, .issue 0x0041 .rnd, .issue 0x0051 .xFromA, .issue 0x0251 .xFromB, .finish] := by
  decide +kernel

/-! ### Witnesses: a state and operands that meet the hypotheses of each statement -/

/-- A core with the right lengths. -/
def ready (p : Params) : Mach p :=
  { Mach.reset p with
    inp := { (Mach.reset p).inp with KLEN := BitVec.ofNat 16 p.b.val, DLEN := BitVec.ofNat 16 p.blockBytes } }

theorem witness_ready : (ready pMin).LengthsRight ∧ (ready p32).LengthsRight ∧ (ready pMax).LengthsRight := by
  refine ⟨?_, ?_, ?_⟩ <;> exact ⟨by decide, by decide⟩

theorem witness_ready_wf : (ready pMax).out.DOUT.wf pMax.blockBytes = true ∧ (ready pMax).out.BUSY = false := by decide

/-- DecodeThenEncodeReturnsWord, NoWordSelectsTwoRows: the word 0x0C41 and its row. -/
theorem witness_word : decode 0x0C41#16 = .ok (.encrnd 12) ∧ ∃ row ∈ opcodeRows, row.selects 0x0C41#16 = true :=
  ⟨by decide, row_of_decode (i := .encrnd 12) (by decide) |>.imp fun _ h => ⟨h.1, h.2.1⟩⟩

/-- OnlyThreeWidthsBuildACore: both clauses at the edges of their ranges (95_test_vectors.md 6.2). -/
theorem witness_widths :
    Params.make 16 0 0 = .ok pMin ∧ Params.make 64 255 255 = .ok pMax ∧ Params.make 31 0 0 = .error .eWidth ∧
      Params.make 33 0 0 = .error .eWidth ∧ Params.make 0 0 0 = .error .eWidth := by
  decide

/-- SmixPerformsOneIteration: the values of the hypotheses exist, on the last index of each array too. -/
theorem witness_smix :
    ∃ (va vb : Word p32.width) (i : Fin p32.t) (j : Fin p32.c) (k : Work p32), k.I.val = p32.t - 1 ∧ k.J.val = p32.c - 1 ∧
      va = (k.S[k.I] + k.KA + k.KB).rotateLeft 3 ∧
      vb = (k.L[k.J] + va + k.KB).rotateLeft (va + k.KB).toNat ∧
      i.val = (k.I.val + 1) % p32.t ∧ j.val = (k.J.val + 1) % p32.c :=
  ⟨_, _, ⟨0, p32.t_pos⟩, ⟨0, p32.c_pos⟩, { Work.reset p32 with I := ⟨25, by decide⟩, J := ⟨3, by decide⟩ }, rfl, rfl, rfl,
    rfl, by decide, by decide⟩

/-- SetupsIsItsExpansion: the chain of operations exists from any core. -/
theorem witness_expansion (m : Mach p16) :
    ∃ (m1 m2 : Mach p16) (ms : Nat → Mach p16) (i : Fin p16.t) (j : Fin p16.c),
      exec .kfold ⟨p16, m⟩ = .next ⟨p16, m1⟩ ∧ exec .sseed ⟨p16, m1⟩ = .next ⟨p16, m2⟩ ∧ i.val = 0 ∧ j.val = 0 ∧
      ms 0 = { m2 with work := { m2.work with KA := 0, KB := 0, I := i, J := j, N := 0 } } ∧
      ∀ k, k < p16.nMix → exec .smix ⟨p16, ms k⟩ = .next ⟨p16, ms (k + 1)⟩ :=
  ⟨_, _, fun k => m.setWork (mixTimes k (clearMixWork (sseedWork (kfoldWork m.inp.KEY m.work)))), ⟨0, p16.t_pos⟩,
    ⟨0, p16.c_pos⟩, rfl, rfl, rfl, rfl, rfl, fun k _ => by simp only [mixTimes_succ]; rfl⟩

/-- EmptyKeyGivesAKeyIndependentTable, ZeroRoundsAddTheFirstTableWords: `RC5-16/0/0`. -/
theorem witness_empty :
    pMin.b.val = 0 ∧ pMin.r.val = 0 ∧ 0 < pMin.t ∧ 1 < pMin.t ∧ (ready pMin).out.BUSY = false ∧
      ∃ s, exec .setups ⟨pMin, ready pMin⟩ = .next ⟨pMin, s⟩ :=
  ⟨rfl, rfl, by decide, by decide, rfl, _, rfl⟩

/-- TableDependsOnKeyBytesOnly, CommandResultDependsOnInputsOnly: cores whose keys differ at byte `b` only. -/
theorem witness_keys :
    (∀ i, i < p16.b.val → (loaded p16 [1, 2, 3] []).inp.KEY.read i = (loaded p16 [1, 2, 9] []).inp.KEY.read i) ∧
      (loaded p16 [1, 2, 3] []).inp.KEY.read 2 ≠ (loaded p16 [1, 2, 9] []).inp.KEY.read 2 ∧
      (∃ n, exec .setups ⟨p16, loaded p16 [1, 2, 3] []⟩ = .next ⟨p16, n⟩) ∧
      ∃ n, exec .setups ⟨p16, loaded p16 [1, 2, 9] []⟩ = .next ⟨p16, n⟩ :=
  ⟨by decide, by decide, ⟨_, rfl⟩, _, rfl⟩

/-- CommandResultDependsOnInputsOnly: equal lengths and block, with canonical output buffers that differ. -/
theorem witness_inputs :
    ∃ m m' : Mach p16, m.out.BUSY = false ∧ m'.out.BUSY = false ∧ m.inp.KLEN = m'.inp.KLEN ∧ m.inp.DLEN = m'.inp.DLEN ∧
      (∀ a, a < p16.b.val → m.inp.KEY.read a = m'.inp.KEY.read a) ∧
      (∀ a, a < p16.blockBytes → m.inp.DIN.read a = m'.inp.DIN.read a) ∧
      m.out.DOUT.wf p16.blockBytes = true ∧ m'.out.DOUT.wf p16.blockBytes = true ∧ m.out.DOUT ≠ m'.out.DOUT :=
  ⟨ready p16, (ready p16).setDOUT (buffer [5] 0), rfl, rfl, rfl, rfl, fun _ _ => rfl, fun _ _ => rfl, by decide, by decide,
    by decide⟩

/-- WhitenAdds..., EncrndTransforms..., DecrndRecovers...: the table indices at the first and the last legal round. -/
theorem witness_round :
    (0 < pMin.t ∧ 1 < pMin.t) ∧ 1 ≤ (1#8).toNat ∧ (1#8).toNat ≤ p16.r.val ∧ 2 * (1#8).toNat + 1 < p16.t ∧
      (255#8).toNat ≤ pMax.r.val ∧ 2 * (255#8).toNat + 1 < pMax.t := by
  decide

/-- ArgumentsOutOfRangeAreRefused: the values next to the legal ones. -/
theorem witness_out_of_range :
    (0#8).toNat = 0 ∧ p16.r.val < (2#8).toNat ∧ 2 * p16.u < (3#8).toNat + p16.u := by decide

/-- PackReads..., UnpackWrites...: both issued offsets, and a canonical buffer. -/
theorem witness_offset :
    (0#8).toNat + p32.u ≤ 2 * p32.u ∧ (4#8).toNat + p32.u ≤ 2 * p32.u ∧
      (Mach.reset p32).out.DOUT.wf p32.blockBytes = true := by
  decide

/-- StoredWordsLoadBack: the last word of a buffer. -/
theorem witness_store : 4 + p32.u ≤ 8 ∧ (buffer [1, 2, 3, 4, 5, 6, 7, 8] 0).wf 8 = true := by decide

/-- WrongBlockSize..., WrongKeyLength...: the lengths next to the right ones. -/
theorem witness_lengths :
    (7#16).toNat ≠ 2 * p32.u ∧ (9#16).toNat ≠ 2 * p32.u ∧ (8#16).toNat = 2 * p32.u ∧ (15#16).toNat ≠ p32.b.val ∧
      (17#16).toNat ≠ p32.b.val ∧ (1#16).toNat ≠ pMin.b.val := by
  decide

/-- DecodeOfEncodeReturnsTheBlock: the two cores of a round trip exist. -/
theorem witness_round_trip :
    ∃ (m n m' : Mach p16), m.out.BUSY = false ∧ m.LengthsRight ∧ m.out.DOUT.wf p16.blockBytes = true ∧
      exec .encode ⟨p16, m⟩ = .next ⟨p16, n⟩ ∧ m'.out.BUSY = false ∧ m'.LengthsRight ∧
      m'.out.DOUT.wf p16.blockBytes = true ∧
      (∀ i, i < p16.b.val → m'.inp.KEY.read i = m.inp.KEY.read i) ∧
      ∀ k, k < p16.blockBytes → m'.inp.DIN.read k = n.out.DOUT.read k :=
  ⟨ready p16, performed .encode (ready p16),
    { ready p16 with inp := { (ready p16).inp with DIN := (performed .encode (ready p16)).out.DOUT } },
    rfl, ⟨by decide, by decide⟩, by decide, exec_of_legal ⟨rfl, fun _ => rfl⟩, rfl, ⟨by decide, by decide⟩, by decide,
    fun _ _ => rfl, fun _ _ => rfl⟩

/-- EncodeOfDecodeReturnsTheBlock: the same the other way round. -/
theorem witness_round_trip_back :
    ∃ (m n m' : Mach p16), m.out.BUSY = false ∧ m.LengthsRight ∧ m.out.DOUT.wf p16.blockBytes = true ∧
      exec .decode ⟨p16, m⟩ = .next ⟨p16, n⟩ ∧ m'.out.BUSY = false ∧ m'.LengthsRight ∧
      m'.out.DOUT.wf p16.blockBytes = true ∧
      (∀ i, i < p16.b.val → m'.inp.KEY.read i = m.inp.KEY.read i) ∧
      ∀ k, k < p16.blockBytes → m'.inp.DIN.read k = n.out.DOUT.read k :=
  ⟨ready p16, performed .decode (ready p16),
    { ready p16 with inp := { (ready p16).inp with DIN := (performed .decode (ready p16)).out.DOUT } },
    rfl, ⟨by decide, by decide⟩, by decide, exec_of_legal ⟨rfl, fun _ => rfl⟩, rfl, ⟨by decide, by decide⟩, by decide,
    fun _ _ => rfl, fun _ _ => rfl⟩

/-- StepPerformsTheIssuedOperation: the operation word put on the select lines after reset. -/
theorem witness_issued :
    ∃ rest, (State.reset.withFetchWord 16 0x0C41).mach.seq = .issue 0x0C41#16 .plain :: rest ∧
      decodeFor Config.resetParams (routeWord .plain 0x0C41#16 State.reset.mach) = .ok (.encrnd 12) :=
  ⟨_, rfl, by decide⟩

/-- StepPerformsTheIssuedOperation: a word whose round index is `RND`. -/
theorem witness_issued_round :
    decodeFor p16 (routeWord .rnd 0x0041#16 ((Mach.reset p16).setWork ((Work.reset p16).setRND 1))) = .ok (.encrnd 1) := by
  decide

/-- StepRefusesReservedWords: a reserved word put on the select lines after reset. -/
theorem witness_reserved :
    ∃ rest, (State.reset.withFetchWord 16 0x0060).mach.seq = .issue 0x0060#16 .plain :: rest ∧
      decodeFor Config.resetParams 0x0060#16 = .error .unit :=
  ⟨_, rfl, by decide⟩

/-- IdleCoreWaitsForStart, SequencedCommandEqualsTheCommand: the core after reset, without the pulse and with it. -/
theorem witness_idle :
    (Mach.reset p16).seq = [] ∧ (Mach.reset p16).out.BUSY = false ∧ (Mach.reset p16).inp.START = false ∧
      ∃ m : Mach p16, m.seq = [] ∧ m.out.BUSY = false ∧ m.inp.START = true :=
  ⟨rfl, rfl, rfl, { ready p16 with inp := { (ready p16).inp with START := true } }, rfl, rfl, rfl⟩

/-- StepKeepsTheInvariant, HostMovesKeepTheInvariant, ParametersNeverChange: the state after reset. -/
theorem witness_invariant :
    State.reset.Inv ∧ (∃ t, step State.reset = .next t) ∧ (∃ t, hostMove (.keyByte 254 1) State.reset = .next t) ∧
      (∃ t, hostMove (.blockByte 15 1) State.reset = .next t) ∧ ∃ t, hostMove .reset State.reset = .next t :=
  ⟨⟨by decide, by decide, by decide, by decide, by decide, by decide, by decide, by decide⟩, ⟨_, rfl⟩, ⟨_, rfl⟩, ⟨_, rfl⟩,
    _, rfl⟩

/-- OnlyUnpackAndCommandsWriteOutputs, OperationsWriteOnlyTheirRegisters: every kind of operation that the two statements
tell apart completes. -/
theorem witness_operations :
    (∃ n, exec (.unpack 2) ⟨p16, Mach.reset p16⟩ = .next ⟨p16, n⟩) ∧
      (∃ n, exec .encode ⟨p16, Mach.reset p16⟩ = .next ⟨p16, n⟩) ∧
      (∃ n, exec (.encrnd 1) ⟨p16, Mach.reset p16⟩ = .next ⟨p16, n⟩) ∧
      (∃ n, exec .smix ⟨p16, Mach.reset p16⟩ = .next ⟨p16, n⟩) ∧
      ∃ n, exec .addw ⟨p16, Mach.reset p16⟩ = .next ⟨p16, n⟩ :=
  ⟨⟨_, exec_of_legal ⟨by decide, nofun⟩⟩, ⟨_, exec_of_legal ⟨rfl, fun _ => rfl⟩⟩, ⟨_, exec_of_legal ⟨by decide, nofun⟩⟩,
    ⟨_, rfl⟩, _, rfl⟩

/-- BusyCoreHoldsItsInputs: a core in the middle of a command, and one on which a pulse stands. -/
theorem witness_busy :
    (beginCommand (ready p16)).out.BUSY = true ∧
      ∃ m : Mach p16, m.out.BUSY = false ∧ m.inp.START = true :=
  ⟨rfl, { ready p16 with inp := { (ready p16).inp with START := true } }, rfl, rfl⟩

/-- HostMovesWriteTheirInputs: a core without a command in flight, and both clauses at the last byte of each buffer and
the first beyond it. -/
theorem witness_host_moves :
    (ready p16).out.BUSY = false ∧ (ready p16).inp.START = false ∧ (ready p16).inp.KEY.wf 255 = true ∧
      (ready p16).inp.DIN.wf 16 = true ∧ (∃ t, hostMove (.keyByte 254 7) ⟨p16, ready p16⟩ = .next t) ∧
      hostMove (.keyByte 255 7) ⟨p16, ready p16⟩ = .fault (.noSuchByte .KEY 255) ∧
      (∃ t, hostMove (.blockByte 15 7) ⟨p16, ready p16⟩ = .next t) ∧
      hostMove (.blockByte 16 7) ⟨p16, ready p16⟩ = .fault (.noSuchByte .DIN 16) :=
  ⟨rfl, rfl, rfl, rfl, ⟨_, rfl⟩, rfl, ⟨_, rfl⟩, rfl⟩

/-- HostReadsOnlyValidBytes: the last byte of the block after a command and before one, and the first byte beyond. -/
theorem witness_host_reads :
    hostReadByte .DOUT 3 (complete (ready p16)) = .ok 0 ∧
      hostReadByte .DOUT 3 (ready p16) = .error (.outputNotValid 3) ∧
      hostReadByte .DOUT 3 (raise .eKeyLength (ready p16)) = .error (.outputNotValid 3) ∧
      hostReadByte .DOUT 4 (complete (ready p16)) = .error (.noSuchByte .DOUT 4) :=
  ⟨rfl, rfl, rfl, rfl⟩

/-- R285, R286: after `START` a second `START`, a change of the lengths and a command's word are refused. -/
theorem test_start_while_busy :
    ∃ s, hostMove (.start 0) ⟨p16, ready p16⟩ = .next s ∧ s.mach.out.BUSY = true ∧ s.mach.out.DONE = false ∧
      hostMove (.start 1) s = .refused .startWhileBusy ∧ hostMove (.lengths 0 0) s = .refused .inputsHeld ∧
      exec .decode s = .refused .startWhileBusy :=
  ⟨_, rfl, rfl, rfl, rfl, rfl, rfl⟩

/-- StatusPortShowsTheCodes: the lengths of each of the three outcomes, on a core that is not busy. -/
theorem witness_status :
    (ready p16).out.BUSY = false ∧ (ready p16).LengthsRight ∧ (loaded p16 [1] []).inp.DLEN.toNat ≠ 2 * p16.u ∧
      (loaded p16 [1] [1, 2, 3, 4]).inp.DLEN.toNat = 2 * p16.u ∧
      (loaded p16 [1] [1, 2, 3, 4]).inp.KLEN.toNat ≠ p16.b.val :=
  ⟨rfl, ⟨by decide, by decide⟩, by decide, by decide, by decide⟩

/-- OutputsAreReadableOnlyWhenValid: a block that may be read. -/
theorem witness_readable : ∃ bytes, hostBlock (complete (ready p16)) = some bytes := ⟨_, rfl⟩

end Sys2Proof.Tests
end

section
/-! PROOFS. The word arithmetic unit (40_word_arithmetic.md R131, R132): the two modular operations read as numbers, and
the obligations on ADDW and SUBW. -/

namespace Sys2Proof.Machine

/-- The carry out of the top bit is discarded (R131). -/
theorem toNat_addW {w : Nat} (x y : BitVec w) : (addW x y).toNat = (x.toNat + y.toNat) % 2 ^ w :=
  BitVec.toNat_ofNat _ _

/-- The borrow is discarded: the value is the residue of the integer difference (R132). -/
theorem intCast_toNat_subW {w : Nat} (x y : BitVec w) :
    ((subW x y).toNat : Int) = ((x.toNat : Int) - y.toNat) % 2 ^ w := by
  have hy : y.toNat ≤ 2 ^ w := Nat.le_of_lt y.isLt
  calc ((subW x y).toNat : Int)
      = ((x.toNat : Int) + (2 ^ w - y.toNat)) % 2 ^ w := by simp [subW, Nat.cast_sub hy]
    _ = ((x.toNat : Int) - y.toNat + 2 ^ w) % 2 ^ w := by congr 1; ring
    _ = ((x.toNat : Int) - y.toNat) % 2 ^ w := Int.add_emod_right _ _

/-- A word minus itself is zero (R132). -/
@[simp] theorem subW_self {w : Nat} (x : BitVec w) : subW x x = 0 := by
  rw [subW_eq_sub]
  exact BitVec.sub_self x

/-- Settles O11: ADDW is issued legally on every core, and what it drives on `Z` is `addW X Y`. -/
theorem addwPutsModularSumOnZ : Obligations.AddwPutsModularSumOnZ := by
  refine ⟨Laws.RoundTrip.addw, fun p m => ⟨addW m.bus.X m.bus.Y, ?value, ?completes⟩, fun w x y z => ?laws⟩
  case value => exact toNat_addW _ _
  case completes => exact exec_of_legal ⟨rfl, nofun⟩
  case laws => exact ⟨addW_comm x y, addW_assoc x y z⟩

/-- Settles O12: SUBW is issued legally on every core, and what it drives on `Z` is `subW X Y`. -/
theorem subwPutsModularDifferenceOnZ : Obligations.SubwPutsModularDifferenceOnZ := by
  refine ⟨Laws.RoundTrip.subw, fun p m => ⟨subW m.bus.X m.bus.Y, ?value, ?completes⟩, fun w x y => ?laws⟩
  case value => exact intCast_toNat_subW _ _
  case completes => exact exec_of_legal ⟨rfl, nofun⟩
  case laws => exact ⟨subW_self x, subW_addW x y⟩

end Sys2Proof.Machine
end

section
/-! PROOFS. The host commands (43_encrypt.md): the block as two words, in `DIN` and in `DOUT`, how a command ends on a
core that is not busy, and the obligation on a core without rounds (R195). -/

namespace Sys2Proof.Machine

variable {p : Params}

/-- The reference's words of a buffer are two loads (R73). -/
theorem blockWords_read (mem : Memory) :
    Reference.blockWords p mem.read = (loadWord p.width.bits mem 0 p.u, loadWord p.width.bits mem p.u p.u) := by
  simp only [Reference.blockWords, Reference.littleEndian, loadWord, loadNat_eq_sum, Nat.zero_add]

/-- The words of the block in `DIN` are those a command packs (R73). -/
theorem blockWords_DIN (m : Mach p) : Reference.blockWords p m.inp.DIN.read = (blockA m, blockB m) :=
  blockWords_read m.inp.DIN

/-- The words of a stored block are those that were stored (R234). -/
theorem blockWords_storedBlock (d : Memory) (hd : d.wf p.blockBytes = true) (a b : Word p.width) :
    Reference.blockWords p (storedBlock p d a b).read = (a, b) :=
  (blockWords_DIN { Mach.reset p with inp.DIN := storedBlock p d a b }).trans
    (block_of_storedBlock d hd a b _ fun _ _ => rfl)

/-- The words of the block in `DOUT` after a successful command are those it computed (R73). -/
theorem blockWords_finished {m : Mach p} (hd : m.out.DOUT.wf p.blockBytes = true) (ab : Word p.width × Word p.width) :
    Reference.blockWords p (finished m ab).out.DOUT.read = ab :=
  blockWords_storedBlock m.out.DOUT hd ab.1 ab.2

/-- ENCODE with the right lengths completes on a core that is not busy (R192). -/
theorem exec_encode_of_lengthsRight {m : Mach p} (hb : m.out.BUSY = false) (hl : m.LengthsRight) :
    exec .encode ⟨p, m⟩
      = .next ⟨p, finished m (Reference.encrypt (commandTable m) p.r.val (blockA m, blockB m))⟩ := by
  rw [exec_of_legal ⟨rfl, fun _ => hb⟩, performed_encode m hl]

/-- DECODE with the right lengths completes on a core that is not busy (R212). -/
theorem exec_decode_of_lengthsRight {m : Mach p} (hb : m.out.BUSY = false) (hl : m.LengthsRight) :
    exec .decode ⟨p, m⟩
      = .next ⟨p, finished m (Reference.decrypt (commandTable m) p.r.val (blockA m, blockB m))⟩ := by
  rw [exec_of_legal ⟨rfl, fun _ => hb⟩, performed_decode m hl]

/-- The table of a command is the one SETUPS leaves in `S` (R171). -/
theorem commandTable_of_setups {m s : Mach p} (hs : exec .setups ⟨p, m⟩ = .next ⟨p, s⟩) (i : Nat) (hi : i < p.t) :
    commandTable m i = s.work.S[i] := by
  obtain ⟨-, hst⟩ := exec_next hs
  cases hst
  exact tableWord_eq _ i hi

/-- Even without rounds the mixing loop runs six times or more: the table has two words at least (R6). -/
theorem six_le_nMix (p : Params) : 6 ≤ p.nMix := by
  have ht : 2 ≤ p.t := by unfold Params.t; omega
  calc 6 = 3 * 2 := rfl
    _ ≤ 3 * max p.t p.c := Nat.mul_le_mul_left 3 (ht.trans (le_max_left _ _))

/-- Settles O41: at `r = 0` the reference encryption and decryption are their base cases, under the table of SETUPS,
and the words of the stored block are the words computed. -/
theorem zeroRoundsAddTheFirstTableWords : Obligations.ZeroRoundsAddTheFirstTableWords := by
  intro p m s h0 h1 hr hbusy hlen hwf hsetups
  have hS0 : commandTable m 0 = s.work.S[0] := commandTable_of_setups hsetups 0 h0
  have hS1 : commandTable m 1 = s.work.S[1] := commandTable_of_setups hsetups 1 h1
  refine ⟨?t, six_le_nMix p, _, _, exec_encode_of_lengthsRight hbusy hlen, exec_decode_of_lengthsRight hbusy hlen,
    rfl, rfl, ?encoded, ?decoded⟩
  case t => rw [Params.t, hr]
  case encoded => rw [blockWords_finished hwf, blockWords_DIN, hr, Reference.encrypt, hS0, hS1]
  case decoded => rw [blockWords_finished hwf, blockWords_DIN, hr, Reference.decrypt, hS0, hS1]

end Sys2Proof.Machine
end

section
/-! PROOFS. The block taken through both commands (44_decrypt.md): what a command packs from the block another command
left in `DOUT`, and the obligation on the round trip (R216). -/

namespace Sys2Proof.Machine

variable {p : Params}

/-- A core given the block a command left packs the words that command computed (R234). -/
theorem block_of_finished {m m' : Mach p} {ab : Word p.width × Word p.width} (hd : m.out.DOUT.wf p.blockBytes = true)
    (h : ∀ k, k < p.blockBytes → m'.inp.DIN.read k = (finished m ab).out.DOUT.read k) : (blockA m', blockB m') = ab :=
  block_of_storedBlock m.out.DOUT hd ab.1 ab.2 m' h

/-- A command that computes the words of another core's block leaves that block in `DOUT` (R234). -/
theorem read_finished_block {m' : Mach p} (hd : m'.out.DOUT.wf p.blockBytes = true) (m : Mach p) (k : Nat)
    (hk : k < p.blockBytes) : (finished m' (blockA m, blockB m)).out.DOUT.read k = m.inp.DIN.read k :=
  read_storedBlock_block m'.out.DOUT hd m k hk

/-- Settles O38: the second core builds the first one's table and packs the words the first one computed, and the
reference decryption undoes the reference encryption under that table. -/
theorem decodeOfEncodeReturnsTheBlock : Obligations.DecodeOfEncodeReturnsTheBlock := by
  intro p m hbusy hlen hwf
  refine ⟨_, exec_encode_of_lengthsRight hbusy hlen, rfl, fun m' hbusy' hlen' hwf' hkey hdin =>
    ⟨_, exec_decode_of_lengthsRight hbusy' hlen', rfl, fun k hk => ?_⟩⟩
  have htable : commandTable m' = commandTable m := commandTable_congr hkey
  have hwords : (blockA m', blockB m') = Reference.encrypt (commandTable m) p.r.val (blockA m, blockB m) :=
    block_of_finished hwf hdin
  rw [htable, hwords, decrypt_encrypt]
  exact read_finished_block hwf' m k hk

end Sys2Proof.Machine
end

section
/-! PROOFS. The errors of a command (60_exceptions.md R253 to R256): which error the length tests raise, that a command
whose tests raise one takes it, and the obligation on the key length (R254). -/

namespace Sys2Proof.Machine

variable {p : Params}

/-- The length tests raise E_KEY_LENGTH exactly when the block size is right and the key length is not (R254). -/
theorem lengthError_eq_eKeyLength (inp : HostIn) :
    lengthError p inp = some .eKeyLength ↔ inp.DLEN.toNat = p.blockBytes ∧ inp.KLEN.toNat ≠ p.b.val := by
  by_cases hd : inp.DLEN.toNat = p.blockBytes
  · simp [lengthError, hd]
  · simp [lengthError, hd]

/-- A command has no `ARG` that could be out of range (R103, R105). -/
theorem wf_of_isCommand {i : Instr} (hi : isCommand i = true) : i.wf p = true := by
  cases i with
  | encode => rfl
  | decode => rfl
  | _ => cases hi

/-- A command whose length tests raise an error leaves the core that takes it, whichever command it is (R256). -/
theorem performed_of_lengthError {i : Instr} {m : Mach p} {e : Status} (hi : isCommand i = true)
    (he : lengthError p m.inp = some e) : performed i m = raise e m := by
  have hresult : ∀ done : Mach p, commandResult m done = raise e m := fun done => by rw [commandResult, he]
  cases i with
  | encode => exact hresult (runEncode m)
  | decode => exact hresult (runDecode m)
  | _ => cases hi

/-- On a core that is not busy a command whose length tests raise an error completes by taking it (R191, R211). -/
theorem exec_of_lengthError {i : Instr} {m : Mach p} {e : Status} (hi : isCommand i = true)
    (hb : m.out.BUSY = false) (he : lengthError p m.inp = some e) :
    exec i ⟨p, m⟩ = .next ⟨p, raise e m⟩ := by
  rw [exec_of_legal ⟨wf_of_isCommand hi, fun _ => hb⟩, performed_of_lengthError hi he]

/-- Settles O35: with the block size right the length tests raise E_KEY_LENGTH, and both commands take it. -/
theorem wrongKeyLengthEndsTheCommand : Obligations.WrongKeyLengthEndsTheCommand := by
  intro p m n hbusy hdlen hklen hn
  have herror : lengthError p m.inp = some .eKeyLength := (lengthError_eq_eKeyLength _).mpr ⟨hdlen, hklen⟩
  have htaken : n = raise .eKeyLength m := hn
  rw [htaken]
  exact ⟨exec_of_lengthError rfl hbusy herror, exec_of_lengthError rfl hbusy herror⟩

end Sys2Proof.Machine
end

section
/-! PROOFS. The operation word (30_encoding.md): the decoder on the word of every operation, which words select a row, and
the obligations on the encoding (R104, R106, R111). -/

namespace Sys2Proof.Machine

/-- The row decoder takes the word of every operation back to it, whatever its `ARG` (R104). -/
theorem decode_encode (i : Instr) : decode (encode i) = .ok i := by
  cases i with
  | encrnd n => exact Laws.RoundTrip.encrnd n
  | decrnd n => exact Laws.RoundTrip.decrnd n
  | pack off => exact Laws.RoundTrip.pack off
  | unpack off => exact Laws.RoundTrip.unpack off
  | _ => rfl

/-- The whole decoder rejects the word of an operation whose `ARG` the core does not allow (R103, R111). -/
theorem decodeFor_encode_of_not_wf {p : Params} {i : Instr} (h : i.wf p = false) :
    decodeFor p (encode i) = .error .argumentRange := by
  simp [decodeFor, decode_encode, h]

/-- Settles O1: the row decoder takes every operation's word back, and the range check decides the rest. -/
theorem encodeThenDecodeReturnsOperation : Obligations.EncodeThenDecodeReturnsOperation :=
  fun _ _ => ⟨decodeFor_encode, decodeFor_encode_of_not_wf⟩

/-- Settles O2: a word that decodes selects the row that builds the operation. -/
theorem decodeThenEncodeReturnsWord : Obligations.DecodeThenEncodeReturnsWord := by
  intro x i h
  obtain ⟨row, hrow, hsel, hbuild⟩ := row_of_decode h
  rw [← hbuild]
  exact encode_of_selects x row hrow hsel

/-- Two rows that one word selects agree on the bits both look at. -/
theorem patterns_agree {row row' : OpcodeRow} {x : BitVec 16} (h : row.selects x = true)
    (h' : row'.selects x = true) : row.pattern &&& row'.mask = row'.pattern &&& row.mask := by
  have hx : x &&& row.mask = row.pattern := by simpa [OpcodeRow.selects] using h
  have hx' : x &&& row'.mask = row'.pattern := by simpa [OpcodeRow.selects] using h'
  rw [← hx, ← hx', BitVec.and_assoc, BitVec.and_assoc, BitVec.and_comm row.mask]

/-- Any two rows of the map with different mnemonics differ in a bit that both look at (R104). -/
theorem mnemonic_of_patterns_agree : ∀ row ∈ opcodeRows, ∀ row' ∈ opcodeRows,
    row.pattern &&& row'.mask = row'.pattern &&& row.mask → row.mnemonic = row'.mnemonic := by
  decide

/-- Settles O3: a word that selects two rows makes their patterns agree where both look. -/
theorem noWordSelectsTwoRows : Obligations.NoWordSelectsTwoRows :=
  fun _ row row' hrow hrow' h h' =>
    mnemonic_of_patterns_agree row hrow row' hrow' (patterns_agree h h')

/-- Settles O4: the decoder rejects a word when its search through the rows finds none. -/
theorem wordsOfNoRowAreReserved : Obligations.WordsOfNoRowAreReserved := by
  intro x
  rw [decode_error_iff, List.find?_eq_none]
  simp only [Bool.not_eq_true]

/-- Settles O5, by running the decoder on the ten words. -/
theorem sampleWordsDecode : Obligations.SampleWordsDecode := by
  unfold Obligations.SampleWordsDecode
  decide

/-- The command that the direction bit names (R105). -/
def commandOf (op : BitVec 1) : Instr := if op = 0 then .encode else .decode

/-- The word the host's bit stands for is the word of the command it names (R105). -/
theorem hostCommandWord_eq : ∀ op : BitVec 1, hostCommandWord op = encode (commandOf op) := by
  decide

/-- The direction bit names one of the two commands (R105). -/
theorem isCommand_commandOf (op : BitVec 1) : isCommand (commandOf op) = true := by
  unfold commandOf
  split <;> rfl

/-- Settles O6: the host's word is the command's word, and a command has no `ARG` to be out of range. -/
theorem hostBitNamesACommand : Obligations.HostBitNamesACommand := by
  intro p op
  rw [hostCommandWord_eq]
  exact decodeFor_encode (wf_of_isCommand (isCommand_commandOf op))

end Sys2Proof.Machine
end

section
/-! PROOFS. What an operation writes, said once (20_memory.md section 1, 10_state.md section 2): the two ways a command
ends, and the four kinds of writes of every other operation. -/

namespace Sys2Proof.Machine

variable {p : Params}

/-- A core that an operation answers is the core after it, and the operation was legal. -/
theorem exec_next_mach {i : Instr} {m n : Mach p} (h : exec i ⟨p, m⟩ = .next ⟨p, n⟩) :
    legal i m ∧ n = performed i m := by
  obtain ⟨hl, hst⟩ := exec_next h
  exact ⟨hl, eq_of_heq (State.mk.inj hst).2⟩

/-- When an operation completes, and what it answers: the two directions of `exec_next_mach` and `exec_of_legal`. -/
theorem exec_iff {i : Instr} {m n : Mach p} : exec i ⟨p, m⟩ = .next ⟨p, n⟩ ↔ legal i m ∧ n = performed i m :=
  ⟨exec_next_mach, fun ⟨hl, hn⟩ => hn ▸ exec_of_legal hl⟩

/-- The error the length tests raise is one of two (R253, R254). -/
theorem lengthError_eq_some {inp : HostIn} {e : Status} (h : lengthError p inp = some e) :
    e = .eBlockSize ∨ e = .eKeyLength := by
  rcases lengthError_cases (p := p) inp with h' | h' | h' <;> rw [h] at h' <;> cases h'
  · exact .inl rfl
  · exact .inr rfl

/-- The commands are ENCODE and DECODE (R105). -/
theorem isCommand_iff {i : Instr} : isCommand i = true ↔ i = .encode ∨ i = .decode := by
  cases i <;> simp [isCommand]

/-- A command either takes the error of its length tests or, with the right lengths, ends successfully with two words
stored (R190, R210, R256). -/
theorem performed_command {i : Instr} (hi : isCommand i = true) (m : Mach p) :
    (∃ e, lengthError p m.inp = some e ∧ performed i m = raise e m) ∨
    (m.LengthsRight ∧ ∃ ab, performed i m = finished m ab) := by
  cases he : lengthError p m.inp with
  | some e => exact .inl ⟨e, rfl, performed_of_lengthError hi he⟩
  | none =>
    have hl : m.LengthsRight := (lengthError_eq_none _).mp he
    cases i with
    | encode => exact .inr ⟨hl, _, performed_encode m hl⟩
    | decode => exact .inr ⟨hl, _, performed_decode m hl⟩
    | _ => cases hi

/-- A round writes the working storage only, and nothing when its index is out of range. -/
theorem roundResult_eq_setWork (m : Mach p) (i : BitVec 8) (f : (n : Nat) → n ≤ p.r.val → Work p) :
    ∃ k, roundResult m i f = m.setWork k := by
  unfold roundResult
  split
  · exact ⟨_, rfl⟩
  · exact ⟨m.work, rfl⟩

/-- An operation that is no command writes the working storage, or drives `Z` or the constant buses, or stores a word
in `DOUT`. -/
theorem performed_internal {i : Instr} (hi : isCommand i = false) (m : Mach p) :
    (∃ k, performed i m = m.setWork k) ∨ (∃ z, performed i m = m.driveZ z) ∨
    performed i m = m.drivePQ (magicP p.width) (magicQ p.width) ∨
    ∃ off, i = .unpack off ∧ performed i m = unpackMach off.toNat m := by
  cases i with
  | encode => cases hi
  | decode => cases hi
  | addw => exact .inr (.inl ⟨_, rfl⟩)
  | subw => exact .inr (.inl ⟨_, rfl⟩)
  | xorw => exact .inr (.inl ⟨_, rfl⟩)
  | rotl => exact .inr (.inl ⟨_, rfl⟩)
  | rotr => exact .inr (.inl ⟨_, rfl⟩)
  | pack off => exact .inr (.inl ⟨_, rfl⟩)
  | pqsel => exact .inr (.inr (.inl rfl))
  | unpack off => exact .inr (.inr (.inr ⟨off, rfl, rfl⟩))
  | encrnd n => exact .inl (roundResult_eq_setWork m n _)
  | decrnd n => exact .inl (roundResult_eq_setWork m n _)
  | _ => exact .inl ⟨_, rfl⟩

/-- After a command `BUSY` is 0 (R41). -/
theorem performed_command_BUSY {i : Instr} (hi : isCommand i = true) (m : Mach p) :
    (performed i m).out.BUSY = false := by
  rcases performed_command hi m with ⟨e, -, h⟩ | ⟨-, ab, h⟩ <;> rw [h] <;> rfl

/-- No operation writes a host-owned input (R40). -/
theorem performed_inp (i : Instr) (m : Mach p) : (performed i m).inp = m.inp := by
  cases hi : isCommand i with
  | true => rcases performed_command hi m with ⟨e, -, h⟩ | ⟨-, ab, h⟩ <;> rw [h] <;> rfl
  | false => rcases performed_internal hi m with ⟨k, h⟩ | ⟨z, h⟩ | h | ⟨off, -, h⟩ <;> rw [h] <;> rfl

/-- An operation that is no command leaves the sequencer's position and the ports but `DOUT` alone. -/
theorem performed_internal_ports {i : Instr} (hi : isCommand i = false) (m : Mach p) :
    (performed i m).seq = m.seq ∧ ∃ d, (performed i m).out = { m.out with DOUT := d } := by
  rcases performed_internal hi m with ⟨k, h⟩ | ⟨z, h⟩ | h | ⟨off, -, h⟩ <;> rw [h]
  · exact ⟨rfl, _, rfl⟩
  · exact ⟨rfl, _, rfl⟩
  · exact ⟨rfl, _, rfl⟩
  · exact ⟨rfl, _, rfl⟩

end Sys2Proof.Machine
end

section
/-! PROOFS. The invariant of the core (20_memory.md section 1, 60_exceptions.md section 1): the part of it that does not
look at the command in flight, that every operation, every line and every move of the host keeps both parts, and the
obligations on the invariant. -/

namespace Sys2Proof.Machine

variable {p : Params}

/-- The part of the invariant that does not look at the command in flight: the buffers, the constant buses and
`STATUS`. -/
def Mach.Steady (m : Mach p) : Prop :=
  m.inp.KEY.wf keyCapacity = true ∧
  m.inp.DIN.wf dinCapacity = true ∧
  m.out.DOUT.wf p.blockBytes = true ∧
  m.bus.P = magicP p.width ∧
  m.bus.Q = magicQ p.width ∧
  m.out.STATUS ≠ .eWidth

/-- The invariant is its steady part and the two clauses on a busy core. -/
theorem inv_iff (m : Mach p) :
    m.Inv ↔ m.Steady ∧ (m.out.BUSY = true → m.out.DONE = false) ∧
      (m.out.BUSY = true → endsWithFinish m.seq = true) := by
  simp only [Mach.Inv, Mach.Steady, and_assoc]

/-- A core that is not busy has only the steady part to meet. -/
theorem inv_of_not_busy {m : Mach p} (h : m.Steady) (hb : m.out.BUSY = false) : m.Inv :=
  (inv_iff m).mpr ⟨h, by simp [hb], by simp [hb]⟩

/-- No length test answers E_WIDTH (R252). -/
theorem lengthError_ne_eWidth {inp : HostIn} {e : Status} (h : lengthError p inp = some e) : e ≠ .eWidth := by
  rcases lengthError_eq_some h with rfl | rfl <;> nofun

/-- Taking an error of the length tests keeps the steady part (R256). -/
theorem steady_raise {m : Mach p} {e : Status} (h : m.Steady) (he : lengthError p m.inp = some e) :
    (raise e m).Steady := by
  obtain ⟨hkey, hdin, hdout, hP, hQ, -⟩ := h
  exact ⟨hkey, hdin, hdout, hP, hQ, lengthError_ne_eWidth he⟩

/-- The successful end of a command keeps the steady part (R41). -/
theorem steady_complete {m : Mach p} (h : m.Steady) : (complete m).Steady := by
  obtain ⟨hkey, hdin, hdout, hP, hQ, -⟩ := h
  exact ⟨hkey, hdin, hdout, hP, hQ, by simp⟩

/-- A legal operation keeps the steady part: what it stores lies inside the block, and what it drives on the constant
buses are the constants. -/
theorem steady_performed {i : Instr} (hw : i.wf p = true) {m : Mach p} (h : m.Steady) : (performed i m).Steady := by
  obtain ⟨hkey, hdin, hdout, hP, hQ, hst⟩ := h
  cases hi : isCommand i with
  | true =>
    rcases performed_command hi m with ⟨e, he, hr⟩ | ⟨-, ab, hr⟩ <;> rw [hr]
    · exact steady_raise ⟨hkey, hdin, hdout, hP, hQ, hst⟩ he
    · exact ⟨hkey, hdin, wf_storedBlock m.out.DOUT hdout ab.1 ab.2, hP, hQ, by simp [finished]⟩
  | false =>
    rcases performed_internal hi m with ⟨k, hr⟩ | ⟨z, hr⟩ | hr | ⟨off, rfl, hr⟩ <;> rw [hr]
    · exact ⟨hkey, hdin, hdout, hP, hQ, hst⟩
    · exact ⟨hkey, hdin, hdout, hP, hQ, hst⟩
    · exact ⟨hkey, hdin, hdout, rfl, rfl, hst⟩
    · exact ⟨hkey, hdin, wf_storeWord m.out.DOUT m.bus.X (of_decide_eq_true hw) hdout, hP, hQ, hst⟩

/-- A legal operation keeps the invariant: a command leaves the core not busy, every other one leaves the ports and the
sequencer's position alone. -/
theorem inv_performed {i : Instr} (hw : i.wf p = true) {m : Mach p} (h : m.Inv) : (performed i m).Inv := by
  obtain ⟨hs, hdone, hfin⟩ := (inv_iff m).mp h
  have hs' : (performed i m).Steady := steady_performed hw hs
  cases hi : isCommand i with
  | true => exact inv_of_not_busy hs' (performed_command_BUSY hi m)
  | false =>
    obtain ⟨hseq, d, hout⟩ := performed_internal_ports hi m
    refine (inv_iff _).mpr ⟨hs', ?_, ?_⟩
    · rw [hout]; exact hdone
    · rw [hout, hseq]; exact hfin

/-- A dropped pulse is no matter of the invariant. -/
theorem inv_dropPulse {m : Mach p} (h : m.Inv) : (dropPulse m).Inv := by
  unfold dropPulse
  split <;> exact h

/-- A dropped pulse is no matter of the steady part. -/
theorem steady_dropPulse {m : Mach p} (h : m.Steady) : (dropPulse m).Steady := by
  unfold dropPulse
  split <;> exact h

/-- The register moves before an operation keep the invariant. -/
theorem inv_routeIn (route : Route) {m : Mach p} (h : m.Inv) : (routeIn route m).Inv := by
  cases route <;> exact h

/-- The register moves after an operation keep the invariant. -/
theorem inv_routeOut (route : Route) {m : Mach p} (h : m.Inv) : (routeOut route m).Inv := by
  cases route <;> exact h

/-- The last line of every command is its end (R192, R212). -/
theorem endsWithFinish_commandLines (p : Params) (op : BitVec 1) : endsWithFinish (commandLines p op) = true := by
  simp [endsWithFinish, commandLines, storeLines, List.getLast?_cons, List.getLast?_append]

/-- With a line removed that is not the end of the command, the end is still to come. -/
theorem endsWithFinish_of_cons {item : SeqItem} {rest : List SeqItem} (hne : item ≠ .finish)
    (h : endsWithFinish (item :: rest) = true) : endsWithFinish rest = true := by
  cases rest with
  | nil => exact absurd (by simpa [endsWithFinish] using h) hne
  | cons next lines => simpa [endsWithFinish, List.getLast?_cons_cons] using h

/-- Removing a line that is not the end of the command keeps the invariant. -/
theorem inv_setSeq {m : Mach p} {item : SeqItem} {rest : List SeqItem} (h : m.Inv) (hseq : m.seq = item :: rest)
    (hne : item ≠ .finish) : (m.setSeq rest).Inv := by
  obtain ⟨hs, hdone, hfin⟩ := (inv_iff m).mp h
  exact (inv_iff _).mpr ⟨hs, hdone, fun hb => endsWithFinish_of_cons hne (hseq ▸ hfin hb)⟩

/-- Beginning a command keeps the invariant: its lines end with its end (R41). -/
theorem inv_beginCommand {m : Mach p} (h : m.Steady) : (beginCommand m).Inv :=
  (inv_iff _).mpr ⟨h, fun _ => rfl, fun _ => endsWithFinish_commandLines p m.inp.OP⟩

/-- A core that waits for `START` keeps the invariant. -/
theorem inv_idleStep {m : Mach p} (h : m.Inv) : (idleStep m).Inv := by
  unfold idleStep
  split
  · exact inv_beginCommand ((inv_iff m).mp h).1
  · exact inv_dropPulse h

/-- The length tests as a line of a command keep the invariant. -/
theorem inv_checkStep {m : Mach p} (h : m.Inv) : (checkStep m).Inv := by
  unfold checkStep
  split
  · next e he => exact inv_of_not_busy (steady_raise ((inv_iff m).mp h).1 he) rfl
  · exact h

/-- Settles O47: the line is removed, and what it performs keeps the invariant; the end of a command, which no line
need follow, needs the steady part only. -/
theorem stepKeepsTheInvariant : Obligations.StepKeepsTheInvariant := by
  rintro ⟨p, m⟩ t hinv hstep
  replace hinv : m.Inv := hinv
  rcases step_cases hstep with ⟨-, rfl⟩ | ⟨item, rest, hseq, hline⟩
  · exact inv_idleStep hinv
  have hrest (hne : item ≠ .finish) : (dropPulse (m.setSeq rest)).Inv := inv_dropPulse (inv_setSeq hinv hseq hne)
  rcases hline with ⟨rfl, rfl⟩ | ⟨rfl, rfl⟩ | ⟨rfl, rfl⟩ | ⟨i, rfl, rfl⟩ | ⟨word, route, i, rfl, hdecode, rfl⟩
  · exact inv_checkStep (hrest nofun)
  · exact hrest nofun
  · have hsteady : (m.setSeq rest).Steady := ((inv_iff m).mp hinv).1
    exact inv_of_not_busy (steady_complete (steady_dropPulse hsteady)) rfl
  · exact hrest nofun
  · exact inv_routeOut route (inv_performed (wf_of_decodeFor hdecode).2 (inv_routeIn route (hrest nofun)))

/-- A free `STATUS` is one that a command can leave (R252, R281). -/
theorem freeStatus_ne_eWidth (stamp : Nat) : freeStatus stamp ≠ .eWidth := by
  unfold freeStatus
  split
  · nofun
  · split <;> nofun

/-- A block of free bytes is canonical. -/
theorem wf_freeBlock (stamp : Nat) {n size : Nat} (hn : n ≤ size) : (freeBlock stamp n).wf size = true := by
  induction n with
  | zero => rfl
  | succ n ih => exact Memory.wf_write _ _ hn (ih (Nat.le_of_succ_le hn))

/-- Settles O48: a byte the host puts in lies inside its buffer, and `START` and reset meet the invariant anew. -/
theorem hostMovesKeepTheInvariant : Obligations.HostMovesKeepTheInvariant := by
  rintro move ⟨p, m⟩ t hinv hmove
  replace hinv : m.Inv := hinv
  obtain ⟨⟨hkey, hdin, hdout, hP, hQ, hst⟩, hbusy⟩ := (inv_iff m).mp hinv
  rcases hostMove_next hmove with ⟨-, rfl⟩ | ⟨-, ⟨off, v, -, hoff, rfl⟩ | ⟨off, v, -, hoff, rfl⟩ |
    ⟨klen, dlen, -, rfl⟩ | ⟨op, -, rfl⟩⟩
  · exact inv_of_not_busy ⟨hkey, hdin, wf_freeBlock m.free (Nat.le_refl _), hP, hQ, freeStatus_ne_eWidth m.free⟩ rfl
  · exact (inv_iff _).mpr ⟨⟨Memory.wf_write _ v hoff hkey, hdin, hdout, hP, hQ, hst⟩, hbusy⟩
  · exact (inv_iff _).mpr ⟨⟨hkey, Memory.wf_write _ v hoff hdin, hdout, hP, hQ, hst⟩, hbusy⟩
  · exact hinv
  · exact inv_beginCommand (m := { m with inp := { m.inp with OP := op } }) ⟨hkey, hdin, hdout, hP, hQ, hst⟩

/-- The core after reset meets the invariant, whatever its parameters (R50). -/
theorem inv_reset (p : Params) : (Mach.reset p).Inv :=
  inv_of_not_busy ⟨rfl, rfl, rfl, rfl, rfl, nofun⟩ rfl

/-- Settles O49: after reset the buffers list no byte and the core is not busy. -/
theorem resetMeetsTheInvariant : Obligations.ResetMeetsTheInvariant :=
  ⟨inv_reset Config.resetParams, inv_reset⟩

/-- Settles O50: the host's reset is answered in every state, by `applyReset`. -/
theorem resetLeavesTheCoreIdle : Obligations.ResetLeavesTheCoreIdle :=
  ⟨fun _ => ⟨rfl, rfl, rfl⟩, fun _ m => ⟨applyReset m, rfl, rfl, rfl, rfl, rfl⟩⟩

end Sys2Proof.Machine
end

section
/-! PROOFS. The parameters (00_scope.md section 3, 41_parameter_resolver.md): the ranges of the derived constants, the
widths that build a core, the magic constants, and the obligations on them. -/

namespace Sys2Proof

open Machine

/-- A word has 2, 4 or 8 bytes (R6). -/
theorem Params.u_cases (p : Params) : p.u = 2 ∨ p.u = 4 ∨ p.u = 8 := by
  unfold Params.u
  cases p.width <;> decide

/-- The key fits into the `c` words of `L` (R6). -/
theorem Params.b_le_c_mul_u (p : Params) : p.b.val ≤ p.c * p.u := by
  unfold Params.c
  rcases p.u_cases with hu | hu | hu <;> rw [hu] <;> omega

/-- No word of `L` is to spare, unless the key is empty (R6). -/
theorem Params.c_sub_one_mul_u_lt (p : Params) (hb : p.b.val ≠ 0) : (p.c - 1) * p.u < p.b.val := by
  unfold Params.c
  rcases p.u_cases with hu | hu | hu <;> rw [hu] <;> omega

/-- The longest key takes 128 words of two bytes (R6). -/
theorem Params.c_le (p : Params) : p.c ≤ 128 := by
  have hb := p.b.isLt
  unfold Params.c
  rcases p.u_cases with hu | hu | hu <;> rw [hu] <;> omega

/-- The largest round count gives 512 table words (R6). -/
theorem Params.t_le (p : Params) : p.t ≤ 512 := by
  have hr := p.r.isLt
  unfold Params.t
  omega

/-- The mixing loop runs at most 1536 times (R6). -/
theorem Params.nMix_le (p : Params) : p.nMix ≤ 1536 := by
  have ht := p.t_le
  have hc := p.c_le
  unfold Params.nMix
  omega

/-- Settles O7, from the bounds of each derived constant. -/
theorem derivedConstantsStayInRange : Obligations.DerivedConstantsStayInRange := by
  intro p
  refine ⟨p.u_cases, p.bits_eq, rfl, ⟨rfl, ?_, p.t_le, ?_⟩,
    ⟨p.c_pos, p.c_le, p.b_le_c_mul_u, p.c_sub_one_mul_u_lt⟩, rfl, six_le_nMix p, p.nMix_le⟩
  · unfold Params.t; omega
  · unfold Params.t; omega

/-- A number of bits that names no width (R151). -/
theorem Width.ofBits?_eq_none {w : Nat} (h : ¬(w = 16 ∨ w = 32 ∨ w = 64)) : Width.ofBits? w = none := by
  unfold Width.ofBits?
  split
  · simp at h
  · simp at h
  · simp at h
  · rfl

/-- Settles O8: three numbers name a width, and for every other one the resolver answers E_WIDTH. -/
theorem onlyThreeWidthsBuildACore : Obligations.OnlyThreeWidthsBuildACore := by
  intro w r b
  refine ⟨?_, fun h => by rw [Params.make, Width.ofBits?_eq_none h]⟩
  rintro (rfl | rfl | rfl)
  · exact ⟨⟨.w16, r, b⟩, rfl, rfl, rfl, rfl⟩
  · exact ⟨⟨.w32, r, b⟩, rfl, rfl, rfl, rfl⟩
  · exact ⟨⟨.w64, r, b⟩, rfl, rfl, rfl, rfl⟩

/-- Settles O9, by evaluating the six constants. -/
theorem magicConstantsAreOddAndLeadingBits : Obligations.MagicConstantsAreOddAndLeadingBits := by
  refine ⟨fun W => ?_, by decide, by decide, by decide, by decide⟩
  cases W <;> decide

/-- Settles O10: PQSEL drives `magicP` and `magicQ`, which are the table of R150. -/
theorem pqselDrivesTheConstants : Obligations.PqselDrivesTheConstants := by
  rintro ⟨W, r, b⟩ m
  refine ⟨magicP W, magicQ W, exec_of_legal ⟨rfl, nofun⟩, ?_, ?_, ?_⟩
  · rintro rfl; exact ⟨rfl, rfl⟩
  · rintro rfl; exact ⟨rfl, rfl⟩
  · rintro rfl; exact ⟨rfl, rfl⟩

end Sys2Proof
end

section
/-! PROOFS. The bitwise operations of the word unit (40_word_arithmetic.md R133 to R137): where XORW and the rotations
take their bits from, how rotation amounts add up, and the obligations on them. -/

namespace Sys2Proof.Machine

/-- Going down by the residue of `n` and then up by `n` comes back to the index. -/
theorem mod_sub_mod_add {w n k : Nat} (hk : k < w) : ((k + (w - n % w)) % w + n) % w = k := by
  have hs : n % w < w := Nat.mod_lt n (by omega)
  calc ((k + (w - n % w)) % w + n) % w
      = (k + (w - n % w) + n % w) % w := by rw [Nat.mod_add_mod, Nat.add_mod_mod]
    _ = (k + w) % w := by congr 1; omega
    _ = k := by rw [Nat.add_mod_right, Nat.mod_eq_of_lt hk]

/-- Where ROTR moves a bit: bit `k` to bit `(k - s) mod w` (R135). -/
theorem getLsbD_rotrW_down {w : Nat} (x : BitVec w) (n k : Nat) (hk : k < w) :
    (rotrW x n).getLsbD ((k + (w - n % w)) % w) = x.getLsbD k := by
  rw [getLsbD_rotrW _ _ _ (Nat.mod_lt _ (by omega)), mod_sub_mod_add hk]

/-- Only the residue of the amount matters (R137). -/
theorem rotrW_mod {w : Nat} (x : BitVec w) (n : Nat) : rotrW x (n % w) = rotrW x n := by
  simp [rotrW]

/-- Amounts that agree modulo `w` rotate alike (R137). -/
theorem rotlW_congr {w : Nat} (x : BitVec w) {n n' : Nat} (h : n % w = n' % w) : rotlW x n = rotlW x n' := by
  rw [← rotlW_mod x n, h, rotlW_mod]

/-- Two rotations in a row rotate by the sum of their amounts (R137). -/
theorem rotlW_rotlW {w : Nat} (x : BitVec w) (n n' : Nat) : rotlW (rotlW x n) n' = rotlW x (n + n') := by
  refine eq_of_residues _ _ (n + n') fun k hk => ?_
  have hmoved : (k + (n + n')) % w = ((k + n) % w + n') % w := by rw [Nat.mod_add_mod, Nat.add_assoc]
  rw [getLsbD_rotlW x _ k hk, hmoved, getLsbD_rotlW _ _ _ (Nat.mod_lt _ (by omega)), getLsbD_rotlW x _ k hk]

/-- Each of the three widths is a power of two: a sum wrapped to a word has the residue of the sum (R137). -/
theorem bits_dvd_two_pow (W : Width) : W.bits ∣ 2 ^ W.bits := by
  cases W <;> decide

/-- Settles O13: bit `k` of the library's xor is the xor of the bits. -/
theorem xorwDiffersBitByBit : Obligations.XorwDiffersBitByBit := by
  refine fun p m => ⟨xorW m.bus.X m.bus.Y, fun k _ => ?_, exec_of_legal ⟨rfl, nofun⟩⟩
  rw [xorW_eq_xor, BitVec.getLsbD_xor, bne_iff_ne]

/-- Settles O14, from where ROTL moves a bit. -/
theorem rotlMovesEveryBitUp : Obligations.RotlMovesEveryBitUp := by
  refine fun p m => ⟨rotlW m.bus.X m.bus.Y.toNat, fun k hk => ?_, fun h0 => if_pos h0, exec_of_legal ⟨rfl, nofun⟩⟩
  rw [Nat.add_mod_mod, getLsbD_rotlW _ _ _ hk]

/-- Settles O15, from where ROTR moves a bit. -/
theorem rotrMovesEveryBitDown : Obligations.RotrMovesEveryBitDown :=
  fun _ m => ⟨rotrW m.bus.X m.bus.Y.toNat, fun k hk => getLsbD_rotrW_down _ _ k hk, fun h0 => if_pos h0,
    exec_of_legal ⟨rfl, nofun⟩⟩

/-- Settles O16, from the laws of the word primitives. -/
theorem wordPrimitivesUndoEachOther : Obligations.WordPrimitivesUndoEachOther :=
  fun _ x y z => ⟨subW_addW x y, addW_subW x y, xorW_xorW x y, rotrW_rotlW x y.toNat, rotlW_rotrW x y.toNat,
    addW_comm x y, addW_assoc x y z, xorW_comm x y, xorW_assoc x y z⟩

/-- Settles O17: the width divides `2^w`, rotations in a row add up, and each rotation is undone by the other one. -/
theorem rotationAmountsAddUp : Obligations.RotationAmountsAddUp := by
  intro W x y z n n'
  have hwrapped : (addW y z).toNat % W.bits = (y.toNat + z.toNat) % W.bits := by
    rw [toNat_addW, Nat.mod_mod_of_dvd _ (bits_dvd_two_pow W)]
  refine ⟨(rotlW_mod x n).symm, (rotrW_mod x n).symm, rotlW_congr x hwrapped, (rotlW_rotlW x n n').symm, ?_, ?_⟩
  · exact Function.bijective_iff_has_inverse.mpr ⟨(rotrW · n), (rotrW_rotlW · n), (rotlW_rotrW · n)⟩
  · exact Function.bijective_iff_has_inverse.mpr ⟨(rotlW · n), (rotlW_rotrW · n), (rotrW_rotlW · n)⟩

end Sys2Proof.Machine
end

section
/-! PROOFS. The key scheduler (42_key_scheduler.md): the obligations on KFOLD, SSEED, SMIX and their composite SETUPS. -/

namespace Sys2Proof.Machine

variable {p : Params}

/-- Settles O18: KFOLD leaves `kfoldWork` and its closed form is `toNat_kfold`. -/
theorem kfoldGathersKeyBytesLittleEndian : Obligations.KfoldGathersKeyBytesLittleEndian :=
  fun _ m => ⟨(kfoldWork m.inp.KEY m.work).L, toNat_kfold m.inp.KEY m.work, exec_of_legal ⟨rfl, nofun⟩⟩

/-- The seed of a table entry as a number (R164). -/
theorem toNat_seedWord (p : Params) (i : Nat) :
    (seedWord p i).toNat = ((magicP p.width).toNat + i * (magicQ p.width).toNat) % 2 ^ p.width.bits := by
  simp only [seedWord, BitVec.toNat_add, BitVec.toNat_mul, BitVec.toNat_ofNat, Nat.add_mod_mod, Nat.mod_mul_mod]

/-- Settles O19: SSEED leaves `seedWord p i` in entry `i`. -/
theorem sseedFillsArithmeticProgression : Obligations.SseedFillsArithmeticProgression := by
  refine fun p m => ⟨(sseedWork m.work).S, fun i hi => ?_, exec_of_legal ⟨rfl, nofun⟩⟩
  rw [getElem_sseed m.work i hi, toNat_seedWord]

/-- Settles O20: `smixWork` written with the library's addition and rotation. -/
theorem smixPerformsOneIteration : Obligations.SmixPerformsOneIteration := by
  refine ⟨Laws.RoundTrip.smix, fun p m va vb i j hva hvb hi hj => ?_⟩
  obtain rfl : i = nextIndex m.work.I := Fin.ext hi
  obtain rfl : j = nextIndex m.work.J := Fin.ext hj
  rw [exec_of_legal (i := .smix) ⟨rfl, nofun⟩]
  simp only [performed, smixWork, Mach.setWork, addW_eq_add, rotlW_eq_rotateLeft, ← hva, ← hvb]

/-- Settles O21: each SMIX of the chain is one more iteration of the loop, so the chain ends where SETUPS ends. -/
theorem setupsIsItsExpansion : Obligations.SetupsIsItsExpansion := by
  intro p m m1 m2 ms i j hkfold hsseed hi hj hstart hchain
  obtain rfl : i = ⟨0, p.t_pos⟩ := Fin.ext hi
  obtain rfl : j = ⟨0, p.c_pos⟩ := Fin.ext hj
  obtain ⟨-, rfl⟩ := exec_next_mach hkfold
  obtain ⟨-, rfl⟩ := exec_next_mach hsseed
  have hms (k : Nat) (hk : k ≤ p.nMix) :
      ms k = m.setWork (mixTimes k (clearMixWork (sseedWork (kfoldWork m.inp.KEY m.work)))) := by
    induction k with
    | zero => exact hstart
    | succ k ih =>
      have hsmix := hchain k hk
      rw [ih (Nat.le_of_succ_le hk)] at hsmix
      rw [(exec_next_mach hsmix).2, mixTimes_succ]
      rfl
  rw [hms p.nMix (Nat.le_refl _)]
  exact exec_of_legal ⟨rfl, nofun⟩

/-- The counters at the end of SETUPS (R167). -/
theorem setupsWork_counters (key : Memory) (k : Work p) :
    (setupsWork key k).N.toNat = p.nMix ∧ (setupsWork key k).I.val = p.nMix % p.t ∧
      (setupsWork key k).J.val = p.nMix % p.c := by
  obtain ⟨hN, hI, hJ⟩ := mixTimes_counters p.nMix (clearMixWork (sseedWork (kfoldWork key k)))
  have hmax := p.nMix_le
  refine ⟨?_, ?_, ?_⟩
  · rw [setupsWork, hN, clearMixWork_N, zero_add, BitVec.toNat_ofNat, Nat.mod_eq_of_lt (by omega)]
  · rw [setupsWork, hI, clearMixWork_I, Nat.zero_add]
  · rw [setupsWork, hJ, clearMixWork_J, Nat.zero_add]

/-- Settles O22: SETUPS leaves `setupsWork`, whose table is the reference's. -/
theorem setupsBuildsTheReferenceTable : Obligations.SetupsBuildsTheReferenceTable := by
  intro p m
  obtain ⟨hN, hI, hJ⟩ := setupsWork_counters m.inp.KEY m.work
  exact ⟨setupsWork m.inp.KEY m.work, exec_of_legal ⟨rfl, nofun⟩, getElem_setupsWork_S _ _, hN, hI, hJ,
    setupsWork_A _ _, setupsWork_B _ _, setupsWork_RND _ _⟩

/-- An empty key takes one key word (R169). -/
theorem c_eq_one (hb : p.b.val = 0) : p.c = 1 := by
  have hnone : (0 + (p.u - 1)) / p.u = 0 := Nat.div_eq_of_lt (by have := p.u_pos; omega)
  rw [Params.c, hb, hnone]
  rfl

/-- An empty key folds to zero (R169). -/
theorem kfoldWork_L_of_empty (hb : p.b.val = 0) (key : Memory) (k : Work p) (j : Nat) (hj : j < p.c) :
    (kfoldWork key k).L[j] = 0 := by
  apply BitVec.eq_of_toNat_eq
  rw [toNat_kfold key k j hj, hb]
  simp

/-- Settles O23: with no key byte to differ in, the table is that of any key on any core, so of the empty key after
reset. -/
theorem emptyKeyGivesAKeyIndependentTable : Obligations.EmptyKeyGivesAKeyIndependentTable := by
  intro p hb
  refine ⟨c_eq_one hb, ?_, fun m => ⟨(kfoldWork m.inp.KEY m.work).L, kfoldWork_L_of_empty hb _ _,
    exec_of_legal ⟨rfl, nofun⟩⟩, (setupsWork [] (Work.reset p)).S, fun m => ⟨setupsWork m.inp.KEY m.work, ?_,
    exec_of_legal ⟨rfl, nofun⟩⟩⟩
  · rw [Params.nMix, c_eq_one hb, max_eq_left (Nat.succ_le_of_lt p.t_pos)]
  · exact setupsWork_S_congr (fun i hi => absurd hi (by omega)) _ _

/-- Settles O24, from what the table of `setupsWork` depends on. -/
theorem tableDependsOnKeyBytesOnly : Obligations.TableDependsOnKeyBytesOnly := by
  intro p m m' n n' hkey hn hn'
  obtain ⟨-, rfl⟩ := exec_next_mach hn
  obtain ⟨-, rfl⟩ := exec_next_mach hn'
  exact setupsWork_S_congr hkey m.work m'.work

end Sys2Proof.Machine
end

section
/-! PROOFS. The round unit (43_encrypt.md, 44_decrypt.md): WHITEN, UNWHITEN and the two rounds as they answer on a core,
the words of the rounds, a round as a map on pairs of words, and the obligations on them. -/

namespace Sys2Proof.Machine

variable {p : Params}

/-- Settles O25: `whitenWork` written with the library's addition. -/
theorem whitenAddsFirstTwoTableWords : Obligations.WhitenAddsFirstTwoTableWords := by
  refine ⟨Laws.RoundTrip.whiten, fun p m _ _ => ?_⟩
  rw [exec_of_legal (i := .whiten) ⟨rfl, nofun⟩]
  simp only [performed, whitenWork, addW_eq_add]
  rfl

/-- Settles O26: `unwhitenWork` written with the library's subtraction. -/
theorem unwhitenSubtractsFirstTwoTableWords : Obligations.UnwhitenSubtractsFirstTwoTableWords := by
  refine ⟨Laws.RoundTrip.unwhiten, fun p m _ _ => ?_⟩
  rw [exec_of_legal (i := .unwhiten) ⟨rfl, nofun⟩]
  simp only [performed, unwhitenWork, subW_eq_sub]
  rfl

/-- A word as a number: `OPW = (ARG << 8) + (UNIT << 4) + SEL` (R101). -/
theorem opw_eq_ofNat (arg : BitVec 8) (unit sel : BitVec 4) :
    opw arg unit sel = BitVec.ofNat 16 (arg.toNat * 2 ^ 8 + (unit.toNat * 2 ^ 4 + sel.toNat)) := by
  have ha := arg.isLt
  have hu := unit.isLt
  have hs := sel.isLt
  apply BitVec.eq_of_toNat_eq
  rw [opw, BitVec.toNat_append, BitVec.toNat_append, ← Nat.shiftLeft_add_eq_or_of_lt hs,
    ← Nat.shiftLeft_add_eq_or_of_lt hu, BitVec.toNat_ofNat, Nat.shiftLeft_eq, Nat.shiftLeft_eq]
  omega

/-- A round with an index of the core writes the working storage. -/
theorem roundResult_of_roundIndex {m : Mach p} {i : BitVec 8} (f : (n : Nat) → n ≤ p.r.val → Work p)
    (h : p.RoundIndex i) : roundResult m i f = m.setWork (f i.toNat h.2) := dif_pos h

/-- A round completes exactly for an index of the core, and writes the working storage. -/
theorem exec_round_iff {op : Instr} {i : BitVec 8} {m n : Mach p} {f : (n : Nat) → n ≤ p.r.val → Work p}
    (hw : op.wf p = decide (p.RoundIndex i)) (hc : isCommand op = false) (hf : performed op m = roundResult m i f) :
    exec op ⟨p, m⟩ = .next ⟨p, n⟩ ↔ ∃ h : p.RoundIndex i, n = m.setWork (f i.toNat h.2) := by
  rw [exec_iff, legal, hw, hc, hf]
  constructor
  · rintro ⟨⟨hd, -⟩, hn⟩
    have h : p.RoundIndex i := of_decide_eq_true hd
    exact ⟨h, hn.trans (roundResult_of_roundIndex f h)⟩
  · rintro ⟨h, hn⟩
    exact ⟨⟨decide_eq_true h, nofun⟩, hn.trans (roundResult_of_roundIndex f h).symm⟩

/-- When ENCRND completes and what it writes (R194). -/
theorem exec_encrnd_iff (i : BitVec 8) (m n : Mach p) :
    exec (.encrnd i) ⟨p, m⟩ = .next ⟨p, n⟩ ↔
      ∃ h : p.RoundIndex i, n = m.setWork (encrndWork m.work i.toNat h.2) :=
  exec_round_iff rfl rfl rfl

/-- When DECRND completes and what it writes (R213). -/
theorem exec_decrnd_iff (i : BitVec 8) (m n : Mach p) :
    exec (.decrnd i) ⟨p, m⟩ = .next ⟨p, n⟩ ↔
      ∃ h : p.RoundIndex i, n = m.setWork (decrndWork m.work i.toNat h.2) :=
  exec_round_iff rfl rfl rfl

/-- WHITEN always completes (R193). -/
theorem exec_whiten_iff (m n : Mach p) :
    exec .whiten ⟨p, m⟩ = .next ⟨p, n⟩ ↔ n = m.setWork (whitenWork m.work) :=
  ⟨fun he => (exec_next_mach he).2, fun hn => hn ▸ exec_of_legal ⟨rfl, nofun⟩⟩

/-- UNWHITEN always completes (R214). -/
theorem exec_unwhiten_iff (m n : Mach p) :
    exec .unwhiten ⟨p, m⟩ = .next ⟨p, n⟩ ↔ n = m.setWork (unwhitenWork m.work) :=
  ⟨fun he => (exec_next_mach he).2, fun hn => hn ▸ exec_of_legal ⟨rfl, nofun⟩⟩

/-- Settles O29: each of the four changes is undone by its partner on the working storage, and the rest of the core is
left alone. -/
theorem roundOperationsUndoEachOther : Obligations.RoundOperationsUndoEachOther := by
  constructor
  · intro p i m n
    rw [exec_encrnd_iff, exec_decrnd_iff]
    constructor
    · rintro ⟨h, rfl⟩; exact ⟨h, by simp⟩
    · rintro ⟨h, rfl⟩; exact ⟨h, by simp⟩
  · intro p m n
    rw [exec_whiten_iff, exec_unwhiten_iff]
    constructor
    · rintro rfl; simp
    · rintro rfl; simp

/-- An encryption round on the block words with the two table words `s`, `s'` (R194). -/
def roundPair {w : Nat} (s s' : BitVec w) (ab : BitVec w × BitVec w) : BitVec w × BitVec w :=
  let a := (ab.1 ^^^ ab.2).rotateLeft ab.2.toNat + s
  (a, (ab.2 ^^^ a).rotateLeft a.toNat + s')

/-- A decryption round on the block words with the two table words `s`, `s'` (R213). -/
def unroundPair {w : Nat} (s s' : BitVec w) (ab : BitVec w × BitVec w) : BitVec w × BitVec w :=
  let b := (ab.2 - s').rotateRight ab.1.toNat ^^^ ab.1
  ((ab.1 - s).rotateRight b.toNat ^^^ b, b)

/-- The block words after ENCRND are those of `roundPair`. -/
theorem encrndWork_eq_roundPair (k : Work p) (i : Nat) (h : i ≤ p.r.val) :
    encrndWork k i h
      = k.setAB (roundPair (roundWordA k i h) (roundWordB k i h) (k.A, k.B)).1
          (roundPair (roundWordA k i h) (roundWordB k i h) (k.A, k.B)).2 := by
  simp only [encrndWork, roundPair, addW_eq_add, xorW_eq_xor, rotlW_eq_rotateLeft]

/-- The block words after DECRND are those of `unroundPair`. -/
theorem decrndWork_eq_unroundPair (k : Work p) (i : Nat) (h : i ≤ p.r.val) :
    decrndWork k i h
      = k.setAB (unroundPair (roundWordA k i h) (roundWordB k i h) (k.A, k.B)).1
          (unroundPair (roundWordA k i h) (roundWordB k i h) (k.A, k.B)).2 := by
  simp only [decrndWork, unroundPair, subW_eq_sub, xorW_eq_xor, rotrW_eq_rotateRight]

/-- A decryption round undoes an encryption round (R218). -/
theorem unroundPair_roundPair {w : Nat} (s s' : BitVec w) (ab : BitVec w × BitVec w) :
    unroundPair s s' (roundPair s s' ab) = ab := by
  simp [unroundPair, roundPair, ← rotlW_eq_rotateLeft, ← rotrW_eq_rotateRight]

/-- An encryption round undoes a decryption round (R217). -/
theorem roundPair_unroundPair {w : Nat} (s s' : BitVec w) (ab : BitVec w × BitVec w) :
    roundPair s s' (unroundPair s s' ab) = ab := by
  simp [unroundPair, roundPair, ← rotlW_eq_rotateLeft, ← rotrW_eq_rotateRight]

/-- For any two table words an encryption round is a bijection on pairs of words (R194). -/
theorem roundPair_bijective {w : Nat} (s s' : BitVec w) : Function.Bijective (roundPair s s') :=
  Function.bijective_iff_has_inverse.mpr ⟨unroundPair s s', unroundPair_roundPair s s', roundPair_unroundPair s s'⟩

/-- Settles O27: the word is the operation's, and the round is `roundPair` on the block words. -/
theorem encrndTransformsBothWords : Obligations.EncrndTransformsBothWords := by
  refine ⟨fun p i h1 hr => ⟨?_, fun m _ _ a b ha hb => ?_⟩, fun p s s' => roundPair_bijective s s'⟩
  · have hword : encode (.encrnd i) = BitVec.ofNat 16 (i.toNat * 2 ^ 8 + 0x41) := opw_eq_ofNat i 0x4 0x1
    rw [← hword]
    exact decodeFor_encode (decide_eq_true ⟨h1, hr⟩)
  · refine (exec_encrnd_iff i m _).mpr ⟨⟨h1, hr⟩, ?_⟩
    subst ha hb
    rw [encrndWork_eq_roundPair]
    rfl

/-- Settles O28: the word is the operation's, and the round is `unroundPair` on the block words. -/
theorem decrndRecoversBothWords : Obligations.DecrndRecoversBothWords := by
  refine fun p i h1 hr => ⟨?_, fun m _ _ a b hb ha => ?_⟩
  · have hword : encode (.decrnd i) = BitVec.ofNat 16 (i.toNat * 2 ^ 8 + 0x43) := opw_eq_ofNat i 0x4 0x3
    rw [← hword]
    exact decodeFor_encode (decide_eq_true ⟨h1, hr⟩)
  · refine (exec_decrnd_iff i m _).mpr ⟨⟨h1, hr⟩, ?_⟩
    subst ha hb
    rw [decrndWork_eq_unroundPair]
    rfl

/-- Settles O30: the four meanings test their `ARG` first. -/
theorem argumentsOutOfRangeAreRefused : Obligations.ArgumentsOutOfRangeAreRefused := by
  constructor
  · intro p m i hi
    have hout : ¬ p.RoundIndex i := by rintro ⟨h1, h2⟩; omega
    exact ⟨dif_neg hout, dif_neg hout⟩
  · intro p m off hoff
    have hout : ¬ p.BlockOffset off := Nat.not_le_of_lt hoff
    exact ⟨if_neg hout, if_neg hout⟩

end Sys2Proof.Machine
end

section
/-! PROOFS. The packer (45_packing.md): the obligations on PACK, UNPACK and the two accesses behind them. -/

namespace Sys2Proof.Machine

variable {p : Params}

/-- A word loaded from the bytes of a word is their number, which fits (R231, R235). -/
theorem toNat_loadWord_u (mem : Memory) (off : Nat) :
    (loadWord p.width.bits mem off p.u).toNat = loadNat mem off p.u := by
  rw [loadWord, BitVec.toNat_ofNat, p.bits_eq, Nat.mod_eq_of_lt (loadNat_lt mem off p.u)]

/-- Settles O31: PACK drives the word it loads, which is the number of its bytes. -/
theorem packReadsLittleEndianWord : Obligations.PackReadsLittleEndianWord := by
  refine fun p m off hoff => ⟨packWord m off.toNat, ?_, exec_of_legal ⟨decide_eq_true hoff, nofun⟩⟩
  rw [packWord, toNat_loadWord_u, loadNat_eq_sum]

/-- Settles O32, from what every byte reads as after a store. -/
theorem unpackWritesLittleEndianBytes : Obligations.UnpackWritesLittleEndianBytes := by
  refine fun p m off hoff hwf => ⟨storeWord m.out.DOUT off.toNat m.bus.X p.u, fun k hk => ?_, fun a ha => ?_,
    wf_storeWord _ _ hoff hwf, exec_of_legal ⟨decide_eq_true hoff, nofun⟩⟩
  · rw [read_storeWord _ _ hoff hwf, if_pos (by omega), Nat.add_sub_cancel_left, byteOf, BitVec.toNat_ofNat]
  · exact read_storeWord_outside _ _ _ _ a ha

/-- Settles O33, from the two laws of a store and a load of whole words. -/
theorem storedWordsLoadBack : Obligations.StoredWordsLoadBack :=
  fun p mem _ _ x hoff hwf => ⟨loadWord_storeWord mem x p.bits_eq hoff hwf, storeWord_loadWord mem p.bits_eq hoff hwf⟩

end Sys2Proof.Machine
end

section
/-! PROOFS. How a command ends (43_encrypt.md, 44_decrypt.md, 60_exceptions.md): the block it leaves in `DOUT` byte by
byte, the reference's table behind it, what the host reads after it, and the obligations on the commands. -/

namespace Sys2Proof.Machine

variable {p : Params}

/-- The length tests raise E_BLOCK_SIZE exactly when the block size is wrong (R253, R255). -/
theorem lengthError_eq_eBlockSize (inp : HostIn) :
    lengthError p inp = some .eBlockSize ↔ inp.DLEN.toNat ≠ p.blockBytes := by
  by_cases hd : inp.DLEN.toNat = p.blockBytes
  · simp [lengthError, hd]
  · simp [lengthError, hd]

/-- Settles O34: with the block size wrong the length tests raise E_BLOCK_SIZE, and both commands take it. -/
theorem wrongBlockSizeEndsTheCommand : Obligations.WrongBlockSizeEndsTheCommand := by
  intro p m n hbusy hdlen hn
  have herror : lengthError p m.inp = some .eBlockSize := (lengthError_eq_eBlockSize _).mpr hdlen
  have htaken : n = raise .eBlockSize m := hn
  rw [htaken]
  exact ⟨exec_of_lengthError rfl hbusy herror, exec_of_lengthError rfl hbusy herror⟩

/-- A command on a core that is not busy completes (R261). -/
theorem exec_command {i : Instr} (hi : isCommand i = true) {m : Mach p} (hb : m.out.BUSY = false) :
    exec i ⟨p, m⟩ = .next ⟨p, performed i m⟩ :=
  exec_of_legal ⟨wf_of_isCommand hi, fun _ => hb⟩

/-- With the right lengths no error is raised (R251). -/
theorem lengthError_of_lengthsRight {m : Mach p} (hl : m.LengthsRight) : lengthError p m.inp = none :=
  (lengthError_eq_none _).mpr hl

/-- Settles O42: an error of the length tests is no OK and excludes the right lengths; a successful end is OK. -/
theorem everyCommandCompletes : Obligations.EveryCommandCompletes := by
  intro p m i hi hbusy
  refine ⟨performed i m, exec_command (isCommand_iff.mpr hi) hbusy, ?_⟩
  rcases performed_command (isCommand_iff.mpr hi) m with ⟨e, he, h⟩ | ⟨hl, ab, h⟩ <;> rw [h]
  · have hwrong : ¬ m.LengthsRight := fun hl => by simp [lengthError_of_lengthsRight hl] at he
    refine ⟨rfl, rfl, .inr (lengthError_eq_some he), ?_⟩
    rcases lengthError_eq_some he with rfl | rfl <;> simp [hwrong]
  · exact ⟨rfl, rfl, .inl rfl, by simp [finished, hl]⟩

/-- Byte `k` of a word as a field of its bits (R11). -/
theorem byteOf_eq_extractLsb' {w : Nat} (x : BitVec w) (k : Nat) : byteOf x k = x.extractLsb' (8 * k) 8 := by
  apply BitVec.eq_of_toNat_eq
  rw [byteOf, BitVec.toNat_ofNat, BitVec.extractLsb'_toNat, Nat.shiftRight_eq_div_pow]

/-- After a successful command the bytes of the block are those of the words it computed (R73). -/
theorem read_finished {m : Mach p} (hd : m.out.DOUT.wf p.blockBytes = true) (ab : Word p.width × Word p.width) {k : Nat}
    (hk : k < p.blockBytes) : (finished m ab).out.DOUT.read k = Reference.blockByte p ab k := by
  rw [finished, read_storedBlock _ hd, if_pos hk, Reference.blockByte, byteOf_eq_extractLsb', byteOf_eq_extractLsb']

/-- After a successful command the bytes beyond the block read as before. -/
theorem read_finished_beyond (m : Mach p) (ab : Word p.width × Word p.width) {a : Nat} (ha : p.blockBytes ≤ a) :
    (finished m ab).out.DOUT.read a = m.out.DOUT.read a := by
  unfold Params.blockBytes at ha
  rw [finished, storedBlock, read_storeWord_outside _ _ _ _ _ (by omega), read_storeWord_outside _ _ _ _ _ (by omega)]

/-- `n` rounds of the reference encryption read the first `2(n+1)` table words only (R194). -/
theorem encrypt_congr {w : Nat} {S S' : Nat → BitVec w} (n : Nat) (h : ∀ i, i < 2 * (n + 1) → S i = S' i)
    (ab : BitVec w × BitVec w) : Reference.encrypt S n ab = Reference.encrypt S' n ab := by
  induction n with
  | zero => rw [Reference.encrypt, Reference.encrypt, h 0 (by omega), h 1 (by omega)]
  | succ n ih =>
    rw [Reference.encrypt, Reference.encrypt, ih fun i hi => h i (by omega), h _ (by omega),
      h (2 * (n + 1) + 1) (by omega)]

/-- `n` rounds of the reference decryption read the first `2(n+1)` table words only (R213). -/
theorem decrypt_congr {w : Nat} {S S' : Nat → BitVec w} (n : Nat) (h : ∀ i, i < 2 * (n + 1) → S i = S' i)
    (ab : BitVec w × BitVec w) : Reference.decrypt S n ab = Reference.decrypt S' n ab := by
  induction n generalizing ab with
  | zero => rw [Reference.decrypt, Reference.decrypt, h 0 (by omega), h 1 (by omega)]
  | succ n ih =>
    rw [Reference.decrypt, Reference.decrypt, h (2 * (n + 1)) (by omega), h (2 * (n + 1) + 1) (by omega),
      ih fun i hi => h i (by omega)]

/-- The words of the table a command works with are those of the reference's expanded table (R168, R171). -/
theorem commandTable_eq_expandedTable (m : Mach p) (i : Nat) (hi : i < p.t) :
    commandTable m i = Reference.expandedTable p m.inp.KEY.read i := by
  rw [commandTable, tableWord_eq _ i hi, getElem_setupsWork_S]

/-- Settles O36: the stored words are the reference encryption, whose table the command has built. -/
theorem encodeWritesTheReferenceCiphertext : Obligations.EncodeWritesTheReferenceCiphertext := by
  intro p m hbusy hlen hwf
  refine ⟨_, exec_encode_of_lengthsRight hbusy hlen, fun k hk => ?_, fun a ha => read_finished_beyond m _ ha,
    rfl, rfl, rfl, rfl, rfl, rfl, rfl⟩
  rw [read_finished hwf _ hk, encrypt_congr p.r.val (commandTable_eq_expandedTable m), blockWords_DIN]

/-- Settles O37: the stored words are the reference decryption, whose table the command has built. -/
theorem decodeWritesTheReferencePlaintext : Obligations.DecodeWritesTheReferencePlaintext := by
  intro p m hbusy hlen hwf
  refine ⟨_, exec_decode_of_lengthsRight hbusy hlen, fun k hk => ?_, fun a ha => read_finished_beyond m _ ha,
    rfl, rfl, rfl, rfl, rfl, rfl, rfl⟩
  rw [read_finished hwf _ hk, decrypt_congr p.r.val (commandTable_eq_expandedTable m), blockWords_DIN]

/-- Settles O39: the second core builds the first one's table and packs the words the first one computed, and the
reference encryption undoes the reference decryption under that table. -/
theorem encodeOfDecodeReturnsTheBlock : Obligations.EncodeOfDecodeReturnsTheBlock := by
  intro p m hbusy hlen hwf
  refine ⟨_, exec_decode_of_lengthsRight hbusy hlen, rfl, fun m' hbusy' hlen' hwf' hkey hdin =>
    ⟨_, exec_encode_of_lengthsRight hbusy' hlen', rfl, fun k hk => ?_⟩⟩
  have htable : commandTable m' = commandTable m := commandTable_congr hkey
  have hwords : (blockA m', blockB m') = Reference.decrypt (commandTable m) p.r.val (blockA m, blockB m) :=
    block_of_finished hwf hdin
  rw [htable, hwords, encrypt_decrypt]
  exact read_finished_block hwf' m k hk

/-- The block words depend on the `2u` bytes of the block only (R73). -/
theorem block_congr {m m' : Mach p} (h : ∀ a, a < p.blockBytes → m.inp.DIN.read a = m'.inp.DIN.read a) :
    (blockA m, blockB m) = (blockA m', blockB m') := by
  unfold Params.blockBytes at h
  have hA : blockA m = blockA m' := loadWord_congr fun k hk => h _ (by omega)
  have hB : blockB m = blockB m' := loadWord_congr fun k hk => h _ (by omega)
  rw [hA, hB]

/-- Two cores that agree on the inputs of a command take the same error or store the same words (R46). -/
theorem performed_command_congr {i : Instr} (hi : isCommand i = true) {m m' : Mach p}
    (hklen : m.inp.KLEN = m'.inp.KLEN) (hdlen : m.inp.DLEN = m'.inp.DLEN)
    (hkey : ∀ a, a < p.b.val → m.inp.KEY.read a = m'.inp.KEY.read a)
    (hdin : ∀ a, a < p.blockBytes → m.inp.DIN.read a = m'.inp.DIN.read a) :
    (∃ e, lengthError p m.inp = some e ∧ performed i m = raise e m ∧ performed i m' = raise e m') ∨
    ∃ ab, performed i m = finished m ab ∧ performed i m' = finished m' ab := by
  have hsame : lengthError p m'.inp = lengthError p m.inp := by simp only [lengthError, hklen, hdlen]
  cases he : lengthError p m.inp with
  | some e => exact .inl ⟨e, rfl, performed_of_lengthError hi he, performed_of_lengthError hi (hsame.trans he)⟩
  | none =>
    have hl : m.LengthsRight := (lengthError_eq_none _).mp he
    have hl' : m'.LengthsRight := (lengthError_eq_none _).mp (hsame.trans he)
    have htable : commandTable m = commandTable m' := commandTable_congr hkey
    have hblock := block_congr hdin
    cases i with
    | encode => exact .inr ⟨_, performed_encode m hl, by rw [performed_encode m' hl', htable, hblock]⟩
    | decode => exact .inr ⟨_, performed_decode m hl, by rw [performed_decode m' hl', htable, hblock]⟩
    | _ => cases hi

/-- The block the host reads after a successful command is made of the words it computed only (R287). -/
theorem hostBlock_finished {m : Mach p} (hd : m.out.DOUT.wf p.blockBytes = true) (ab : Word p.width × Word p.width) :
    hostBlock (finished m ab) = some ((List.range p.blockBytes).map (Reference.blockByte p ab)) := by
  have hbytes : readBytes (finished m ab).out.DOUT 0 p.blockBytes
      = (List.range p.blockBytes).map (Reference.blockByte p ab) :=
    List.map_congr_left fun k hk => by rw [Nat.zero_add, read_finished hd ab (List.mem_range.mp hk)]
  rw [hostBlock, if_pos ((outputValid_iff _).mpr ⟨rfl, rfl⟩), hbytes]

/-- After an error of the length tests the host reads no block (R287). -/
theorem hostBlock_raise (m : Mach p) {e : Status} (he : e ≠ .ok) : hostBlock (raise e m) = none := by
  rw [hostBlock, if_neg]
  rw [outputValid_iff]
  exact fun h => he h.2

/-- Settles O40: the two cores take the same error, or store the same words, of which the host reads the bytes. -/
theorem commandResultDependsOnInputsOnly : Obligations.CommandResultDependsOnInputsOnly := by
  intro p i m m' hi hbusy hbusy' hklen hdlen hkey hdin hwf hwf'
  have hc := isCommand_iff.mpr hi
  refine ⟨performed i m, performed i m', exec_command hc hbusy, exec_command hc hbusy', ?_⟩
  rcases performed_command_congr hc hklen hdlen hkey hdin with ⟨e, he, h, h'⟩ | ⟨ab, h, h'⟩ <;> rw [h, h']
  · have hne : e ≠ .ok := by rcases lengthError_eq_some he with rfl | rfl <;> nofun
    exact ⟨rfl, by rw [hostBlock_raise m hne, hostBlock_raise m' hne]⟩
  · exact ⟨rfl, by rw [hostBlock_finished hwf, hostBlock_finished hwf']⟩

/-- Settles O59: the port shows the code of the error taken, or of OK. -/
theorem statusPortShowsTheCodes : Obligations.StatusPortShowsTheCodes := by
  refine ⟨⟨rfl, rfl, rfl, rfl⟩, fun p m i hi hbusy => ?_, fun p m => ⟨fun h => ?_, fun h => ?_⟩⟩
  · have hc := isCommand_iff.mpr hi
    refine ⟨performed i m, exec_command hc hbusy, fun hl => ?_, fun hd => ?_, fun hd hk => ?_⟩
    · rcases performed_command hc m with ⟨e, he, -⟩ | ⟨-, ab, h⟩
      · simp [lengthError_of_lengthsRight hl] at he
      · rw [h]; rfl
    · rw [performed_of_lengthError hc ((lengthError_eq_eBlockSize _).mpr hd)]; rfl
    · rw [performed_of_lengthError hc ((lengthError_eq_eKeyLength _).mpr ⟨hd, hk⟩)]; rfl
  · simp [hostStatusPort, hostStatus, h]
  · simp [hostStatusPort, hostStatus, h]

end Sys2Proof.Machine
end

section
/-! PROOFS. The step (10_state.md section 3, 30_encoding.md section 4): what a line with an operation word does, when a step
is refused, what no step changes, and the obligations on the machine. -/

namespace Sys2Proof.Machine

variable {p : Params}

/-- A dropped pulse leaves the word on the select lines alone. -/
@[simp] theorem routeWord_dropPulse_setSeq (route : Route) (word : BitVec 16) (m : Mach p) (rest : List SeqItem) :
    routeWord route word (dropPulse (m.setSeq rest)) = routeWord route word m := by
  unfold dropPulse
  split <;> cases route <;> rfl

/-- A dropped pulse leaves the output ports alone. -/
@[simp] theorem dropPulse_out (m : Mach p) : (dropPulse m).out = m.out := by
  unfold dropPulse
  split <;> rfl

/-- A step with a line left performs it on the core with the line removed (R38). -/
theorem step_of_seq {m : Mach p} {item : SeqItem} {rest : List SeqItem} (h : m.seq = item :: rest) :
    step ⟨p, m⟩ = performLine item (dropPulse (m.setSeq rest)) := by
  show advance m = _
  rw [advance, h]

/-- A step without a line left samples `START` or waits (R281). -/
theorem step_of_idle {m : Mach p} (h : m.seq = []) : step ⟨p, m⟩ = .next ⟨p, idleStep m⟩ := by
  show advance m = _
  rw [advance, h]

/-- Settles O43: the line is an issue of the word, which decodes alike with the line removed. -/
theorem stepPerformsTheIssuedOperation : Obligations.StepPerformsTheIssuedOperation := by
  intro p m word route rest i hseq hdecode
  rw [step_of_seq hseq]
  refine issueWord_of_decodeFor ?_
  rwa [routeWord_dropPulse_setSeq]

/-- Settles O44: the line is an issue of the word, which is reserved with the line removed too. -/
theorem stepRefusesReservedWords : Obligations.StepRefusesReservedWords := by
  intro p m word route rest e hseq hdecode
  rw [step_of_seq hseq, performLine, issueWord, routeWord_dropPulse_setSeq, hdecode]

/-- Settles O45: an idle core that is not busy begins the command when the pulse stands, and drops no pulse. -/
theorem idleCoreWaitsForStart : Obligations.IdleCoreWaitsForStart := by
  intro p m hseq hbusy
  rw [step_of_idle hseq]
  refine ⟨fun hstart => ?_, fun hstart => ?_⟩
  · rw [idleStep, if_pos (by simp [hstart, hbusy])]; rfl
  · rw [idleStep, if_neg (by simp [hstart]), dropPulse_eq hstart]

/-- Settles O51: of all lines only the issue of a word can be refused, by the decoder or, as its `ARG` is in range, by a
busy core to which it gives a command. -/
theorem everyStateStepsUnlessItsWordIsRefused : Obligations.EveryStateStepsUnlessItsWordIsRefused := by
  intro p m
  cases hseq : m.seq with
  | nil => exact .inl ⟨_, step_of_idle hseq⟩
  | cons item rest =>
    have hstep := step_of_seq hseq
    cases item with
    | check => exact .inl ⟨_, hstep⟩
    | clearMix => exact .inl ⟨_, hstep⟩
    | setRnd i => exact .inl ⟨_, hstep⟩
    | finish => exact .inl ⟨_, hstep⟩
    | issue word route =>
      cases hdecode : decodeFor p (routeWord route word m) with
      | error e =>
        exact .inr (.inl ⟨word, route, rest, e, rfl, hdecode,
          stepRefusesReservedWords p m word route rest e hseq hdecode⟩)
      | ok i =>
        have hissue := stepPerformsTheIssuedOperation p m word route rest i hseq hdecode
        rcases exec_eq i (routeIn route (dropPulse (m.setSeq rest))) with ⟨-, h⟩ | ⟨hc, hb, h⟩ | ⟨hw, -⟩
        · exact .inl ⟨_, hissue.trans (congrArg (routeAnswer route) h)⟩
        · rw [routeIn_out, dropPulse_out] at hb
          exact .inr (.inr ⟨hb, word, route, rest, i, rfl, isCommand_iff.mp hc, hdecode,
            hissue.trans (congrArg (routeAnswer route) h)⟩)
        · rw [(wf_of_decodeFor hdecode).2] at hw
          cases hw

/-- Settles O52: every next state is built from the parameters of the state before. -/
theorem parametersNeverChange : Obligations.ParametersNeverChange := by
  refine ⟨?_, ?_, ?_⟩
  · rintro ⟨p, m⟩ t h
    rcases step_cases h with ⟨-, rfl⟩ | ⟨item, rest, -, hline⟩
    · rfl
    · rcases hline with ⟨-, rfl⟩ | ⟨-, rfl⟩ | ⟨-, rfl⟩ | ⟨i, -, rfl⟩ | ⟨word, route, i, -, -, rfl⟩ <;> rfl
  · rintro i ⟨p, m⟩ t h
    obtain ⟨-, rfl⟩ := exec_next h
    rfl
  · rintro move ⟨p, m⟩ t h
    rcases hostMove_next h with ⟨-, rfl⟩ | ⟨-, ⟨off, v, -, -, rfl⟩ | ⟨off, v, -, -, rfl⟩ | ⟨klen, dlen, -, rfl⟩ |
      ⟨op, -, rfl⟩⟩ <;> rfl

/-- An operation that is neither a command nor UNPACK leaves `DOUT` alone (R41, R70). -/
theorem performed_DOUT {i : Instr} (hc : isCommand i = false) (hu : ∀ off, i ≠ .unpack off) (m : Mach p) :
    (performed i m).out.DOUT = m.out.DOUT := by
  rcases performed_internal hc m with ⟨k, h⟩ | ⟨z, h⟩ | h | ⟨off, hi, -⟩
  · rw [h]; rfl
  · rw [h]; rfl
  · rw [h]; rfl
  · exact absurd hi (hu off)

/-- A command leaves the bytes of `DOUT` beyond the block alone (R192, R256). -/
theorem performed_command_beyond {i : Instr} (hc : isCommand i = true) (m : Mach p) {a : Nat} (ha : p.blockBytes ≤ a) :
    (performed i m).out.DOUT.read a = m.out.DOUT.read a := by
  rcases performed_command hc m with ⟨e, -, h⟩ | ⟨-, ab, h⟩ <;> rw [h]
  · rfl
  · exact read_finished_beyond m ab ha

/-- Settles O53: a command writes `DOUT` inside the block only, UNPACK the bytes of one word, and the other operations
none. -/
theorem onlyUnpackAndCommandsWriteOutputs : Obligations.OnlyUnpackAndCommandsWriteOutputs := by
  intro i p m n h
  obtain ⟨-, rfl⟩ := exec_next_mach h
  refine ⟨performed_inp i m, fun a ha => ?_, fun henc hdec => ?_⟩
  · cases i with
    | encode => exact performed_command_beyond rfl m ha
    | decode => exact performed_command_beyond rfl m ha
    | unpack off => exact read_storeWord_outside _ _ _ _ a ha
    | _ => exact congrArg (Memory.read · a) (performed_DOUT rfl (by simp) m)
  · have hc : isCommand i = false := Bool.eq_false_iff.mpr fun hc => (isCommand_iff.mp hc).elim henc hdec
    obtain ⟨hseq, d, hout⟩ := performed_internal_ports hc m
    rw [hout]
    exact ⟨rfl, rfl, rfl, hseq⟩

/-- Settles O54: each operation's own update names what it writes; that the mixing loop leaves the block words and the
round index alone is a law of `setupsWork`. -/
theorem operationsWriteOnlyTheirRegisters : Obligations.OperationsWriteOnlyTheirRegisters := by
  intro i p m n h
  cases i with
  | encode => trivial
  | decode => trivial
  | encrnd i => obtain ⟨-, rfl⟩ := (exec_encrnd_iff i m n).mp h; exact ⟨rfl, rfl⟩
  | decrnd i => obtain ⟨-, rfl⟩ := (exec_decrnd_iff i m n).mp h; exact ⟨rfl, rfl⟩
  | smix => obtain ⟨-, rfl⟩ := exec_next_mach h; exact ⟨rfl, rfl, rfl, rfl⟩
  | setups =>
    obtain ⟨-, rfl⟩ := exec_next_mach h
    exact ⟨setupsWork_A _ _, setupsWork_B _ _, setupsWork_RND _ _, rfl⟩
  | _ => obtain ⟨-, rfl⟩ := exec_next_mach h; exact ⟨rfl, rfl⟩

end Sys2Proof.Machine
end

section
/-! PROOFS. The host's port (70_reset_and_hazards.md, 20_memory.md section 1): what each move writes, when it is held, what
each reading answers, and the obligations on the host. -/

namespace Sys2Proof.Machine

variable {p : Params}

/-- A direction put in on a core without a pulse leaves it without one. -/
theorem setOP_clearSTART {inp : HostIn} (h : inp.START = false) (op : BitVec 1) :
    { inp with OP := op, START := false } = { inp with OP := op } := by
  rw [← h]

/-- `START` given to a core without a command in flight is sampled at once: the core is busy and stands before the lines
of the command (R41; log 26). -/
theorem hostMove_start {m : Mach p} (hb : m.out.BUSY = false) (hs : m.inp.START = false) (op : BitVec 1) :
    hostMove (.start op) ⟨p, m⟩ = .next ⟨p,
      { m with
        inp := { m.inp with OP := op }
        out := { m.out with BUSY := true, DONE := false }
        seq := commandLines p op }⟩ := by
  have hf : m.inFlight = false := (inFlight_eq_false m).mpr ⟨hb, hs⟩
  rw [hostMove, if_neg (by simp [hf]), idleStep_start hb, setOP_clearSTART hs]
  rfl

/-- Settles O57: with no command in flight a move writes its input, and a byte written to a canonical buffer reads back
with every other byte as it was. -/
theorem hostMovesWriteTheirInputs : Obligations.HostMovesWriteTheirInputs := by
  refine ⟨fun p m hb hs hkey hdin => ?_,
    fun s off v => ⟨fun h => if_neg (Nat.not_lt.mpr h), fun h => if_neg (Nat.not_lt.mpr h)⟩⟩
  have hput := put_of_free (s := ⟨p, m⟩) ((inFlight_eq_false m).mpr ⟨hb, hs⟩)
  refine ⟨fun off v hoff => ?_, fun off v hoff => ?_, fun klen dlen => hput _, hostMove_start hb hs⟩
  · exact ⟨m.inp.KEY.write off v, Memory.read_write_same _ _ _ hkey, fun a ha => Memory.read_write_other _ v ha,
      Memory.wf_write _ v hoff hkey, (if_pos hoff).trans (hput _)⟩
  · exact ⟨m.inp.DIN.write off v, Memory.read_write_same _ _ _ hdin, fun a ha => Memory.read_write_other _ v ha,
      Memory.wf_write _ v hoff hdin, (if_pos hoff).trans (hput _)⟩

/-- A busy core refuses a command (R286; log 28). -/
theorem exec_command_of_busy {i : Instr} (hi : isCommand i = true) {m : Mach p} (hb : m.out.BUSY = true) :
    exec i ⟨p, m⟩ = .refused .startWhileBusy := by
  rcases exec_eq i m with ⟨⟨-, hfree⟩, -⟩ | ⟨-, -, h⟩ | ⟨hw, -⟩
  · rw [hfree hi] at hb; cases hb
  · exact h
  · rw [wf_of_isCommand hi] at hw; cases hw

/-- Settles O55: every move that changes an input goes through `State.put`, which a command in flight refuses. -/
theorem busyCoreHoldsItsInputs : Obligations.BusyCoreHoldsItsInputs := by
  intro p m h
  have hf : m.inFlight = true := (inFlight_eq_true m).mpr h
  have hput := put_of_inFlight (s := ⟨p, m⟩) hf
  exact ⟨fun off v hoff => (if_pos hoff).trans (hput _), fun off v hoff => (if_pos hoff).trans (hput _),
    fun klen dlen => hput _, fun op => if_pos hf, fun hb => ⟨exec_command_of_busy rfl hb, exec_command_of_busy rfl hb⟩⟩

/-- Settles O56: the three readings test `DONE`, and the block also `STATUS`. -/
theorem outputsAreReadableOnlyWhenValid : Obligations.OutputsAreReadableOnlyWhenValid := by
  refine fun p m => ⟨fun hd => if_pos hd, fun hd => if_neg (by simp [hd]), fun hd hs => ?_, fun h => ?_⟩
  · refine ⟨_, if_pos ((outputValid_iff m).mpr ⟨hd, hs⟩), length_readBytes _ _ _, fun k hk => ?_⟩
    rw [getElem?_readBytes _ _ p.blockBytes k hk, Nat.zero_add]
  · exact if_neg (mt (outputValid_iff m).mp h)

/-- Settles O58: a reading tests the offset, and of `DOUT` also whether the block is valid. -/
theorem hostReadsOnlyValidBytes : Obligations.HostReadsOnlyValidBytes := by
  refine fun p m off => ⟨fun h => if_pos h, fun h => if_neg (Nat.not_lt.mpr h), fun h => if_pos h,
    fun h => if_neg (Nat.not_lt.mpr h), fun h hd hs => ?_, fun h hv => ?_, fun h => if_neg (Nat.not_lt.mpr h)⟩
  · exact (if_pos h).trans (if_pos ((outputValid_iff m).mpr ⟨hd, hs⟩))
  · exact (if_pos h).trans (if_neg (mt (outputValid_iff m).mp hv))

end Sys2Proof.Machine
end

section
/-! PROOFS. The command performed line by line (30_encoding.md section 5, 43_encrypt.md section 1): the lines between the
length tests and the end, the whole run of a command, and the obligation on the two views of a command (R110). -/

namespace Sys2Proof.Machine

variable {p : Params}

/-- What the lines of a command do between the length tests and the end (R192, R212). -/
def commandBody (op : BitVec 1) (m : Mach p) : Mach p :=
  let m1 := setupsMach (loadBlock m)
  storeBlock (m1.setWork (if op = 0 then encryptWork m1.work else decryptWork m1.work))

/-- The lines of a command between the length tests and the end. -/
def bodyLines (p : Params) (op : BitVec 1) : List SeqItem :=
  loadLines p ++ setupLines p ++ transformLines p op ++
    [issueLine (.unpack 0) .xFromA, issueLine (.unpack (offsetU p)) .xFromB]

/-- The lines of a command are the length tests, the body and the end. -/
theorem commandLines_eq (p : Params) (op : BitVec 1) : commandLines p op = (.check :: bodyLines p op) ++ [.finish] := by
  simp [commandLines, bodyLines, storeLines]

/-- The body's lines are the body. -/
theorem runs_body (op : BitVec 1) (m : Mach p) (hs : m.inp.START = false) :
    Runs (bodyLines p op) m (commandBody op m) :=
  (((runs_load m hs).append (runs_setup _ hs)).append (runs_transform op _ hs)).append (runs_store _ hs)

/-- The length tests as a line, when they pass. -/
theorem runs_check (m : Mach p) (hs : m.inp.START = false) (he : lengthError p m.inp = none) : Runs [.check] m m := by
  refine Runs.line hs fun rest => ?_
  rw [performLine, checkStep, Mach.setSeq_inp, he]

/-- The command of a direction, when its length tests pass, is its body and the end (R192, R212). -/
theorem performed_commandOf {m : Mach p} (op : BitVec 1) (he : lengthError p m.inp = none) :
    performed (commandOf op) m = complete (commandBody op m) := by
  unfold commandOf commandBody
  split
  · rw [performed, commandResult, he]; rfl
  · rw [performed, commandResult, he]; rfl

/-- One step of a run. -/
theorem run_succ {s t : State} (h : step s = .next t) (k : Nat) :
    Sys2Proof.core.run (k + 1) s = Sys2Proof.core.run k t := by
  have hstep : Sys2Proof.core.step s = .next t := h
  simp only [Host.Core.run, hstep]

/-- A step of a core without a pulse that stands before a line. -/
theorem step_setSeq {m : Mach p} (hs : m.inp.START = false) (item : SeqItem) (rest : List SeqItem) :
    step ⟨p, m.setSeq (item :: rest)⟩ = performLine item (m.setSeq rest) := by
  rw [step_of_seq rfl, Mach.setSeq_setSeq, dropPulse_eq (m := m.setSeq rest) hs]

/-- A core without a pulse that stands before the lines of a command reaches, within those lines, the core that the
command leaves as one step (R110). -/
theorem run_commandLines (op : BitVec 1) (m : Mach p) (hs : m.inp.START = false) :
    ∃ k, k ≤ (commandLines p op).length ∧
      Sys2Proof.core.run k ⟨p, m.setSeq (commandLines p op)⟩ = .next ⟨p, performed (commandOf op) m⟩ := by
  rw [commandLines_eq]
  cases he : lengthError p m.inp with
  | some e =>
    refine ⟨1, by simp, ?_⟩
    rw [run_succ (t := ⟨p, raise e m⟩), performed_of_lengthError (isCommand_commandOf op) he]
    · rfl
    · rw [List.cons_append, step_setSeq hs, performLine, checkStep, Mach.setSeq_inp, he]
      rfl
  | none =>
    refine ⟨(SeqItem.check :: bodyLines p op).length + 1, by simp, ?_⟩
    rw [(runs_check m hs he).cons (runs_body op m hs), run_succ (t := ⟨p, complete (commandBody op m)⟩),
      performed_commandOf op he]
    · rfl
    · exact step_setSeq (m := commandBody op m) hs .finish []

/-- A command does not look at `BUSY` and `DONE`, and writes both (R41). -/
theorem performed_accepted {i : Instr} (hi : isCommand i = true) (m : Mach p) (busy done : Bool) :
    performed i { m with out := { m.out with BUSY := busy, DONE := done } } = performed i m := by
  rcases performed_command_congr hi (m := { m with out := { m.out with BUSY := busy, DONE := done } }) (m' := m) rfl rfl
    (fun _ _ => rfl) (fun _ _ => rfl) with ⟨e, -, h, h'⟩ | ⟨ab, h, h'⟩
  · rw [h, h']; rfl
  · rw [h, h']; rfl

/-- A core without a pulse that has accepted a command reaches, within the lines of the command, what the command answers
as one step on the core that is not busy yet. -/
theorem run_accepted (op : BitVec 1) {m : Mach p} (hb : m.out.BUSY = false) (hs : m.inp.START = false) :
    ∃ k n, k ≤ (commandLines p op).length ∧
      Sys2Proof.core.run k
        ⟨p, { m with out := { m.out with BUSY := true, DONE := false }, seq := commandLines p op }⟩ = .next ⟨p, n⟩ ∧
      exec (commandOf op) ⟨p, m⟩ = .next ⟨p, n⟩ := by
  obtain ⟨k, hk, hrun⟩ := run_commandLines op { m with out := { m.out with BUSY := true, DONE := false } } hs
  rw [performed_accepted (isCommand_commandOf op)] at hrun
  exact ⟨k, _, hk, hrun, exec_command (isCommand_commandOf op) hb⟩

/-- Settles O46: a pulse that stands takes one step to be accepted, and the host's `START` is accepted as it is given. -/
theorem sequencedCommandEqualsTheCommand : Obligations.SequencedCommandEqualsTheCommand := by
  constructor
  · intro p m hseq hbusy hstart
    obtain ⟨k, n, hk, hrun, hexec⟩ :=
      run_accepted m.inp.OP (m := { m with inp := { m.inp with START := false } }) hbusy rfl
    have hbegin := (idleCoreWaitsForStart p m hseq hbusy).1 hstart
    exact ⟨k + 1, n, Nat.succ_le_succ hk, (run_succ hbegin k).trans hrun, hexec⟩
  · intro p m op hbusy hstart
    obtain ⟨k, n, hk, hrun, hexec⟩ :=
      run_accepted op (m := { m with inp := { m.inp with OP := op } }) hbusy hstart
    exact ⟨k, _, n, hostMove_start hbusy hstart op, hk, hrun, hexec⟩

end Sys2Proof.Machine
end
